-- ==== Sys2Proof/Word.lean ====
section
/-! DEFINITION. The word types of the block (spec/00_scope.md R5 to R11): widths only, no behaviour. -/

namespace Sys2Proof

/-- A 4-bit unsigned value, NW = 4 (R5, R9). -/
abbrev Nibble := BitVec 4

/-- An 8-bit unsigned value, BW = 8 (R5, R10). -/
abbrev Byte := BitVec 8

/-- A SRC address, AW = 12 (R5, R40). -/
abbrev Addr := BitVec 12

/-- A source length or a byte index in a source sequence: 12 bits, at most LENMAX = 4095 (R5, R25, R26). -/
abbrev Count := BitVec 12

/-- A command word or a response word, CMDW = RSPW = 32 (R5, R60, R61). -/
abbrev Word := BitVec 32

/-- The integer operand V28 of NVAL and NMASK (IW = 28), and the RESULT field of a response (R5, R61, R64). -/
abbrev Int28 := BitVec 28

/-- The character-code operand CP21 of HEXP, CW = 21 (R5, R64). -/
abbrev CodePoint := BitVec 21

/-- The channel index field CH2 (R64). -/
abbrev ChanIx := BitVec 2

end Sys2Proof
end

