-- ==== Sys2Proof/Config.lean ====
section
/-! DEFINITION. What one realisation of the block fixes (spec/00_scope.md R5), and the one free value of the spec. -/

namespace Sys2Proof.Config

/-- NCH, the number of sequence channels, of the machine `State.reset` starts.
DESIGN CHOICE (entry 1): R5 and D11 leave NCH open between 1 and 4; 2 is what the spec's own vectors take
(95_test_vectors.md, Conventions). The machine itself reads NCH off its state, so a statement about all states
holds for every NCH. Unsafe only for a statement about `State.reset` itself. -/
def nch : Nat := 2

/-- The largest NCH the 2-bit channel field can name (R5: 1 ≤ NCH ≤ 4). -/
def maxNch : Nat := 4

/-- The size of SRC in bytes (R40). -/
def srcBytes : Nat := 4096

/-- What SRC holds at an address the host has not written: a FREE VALUE per address, with no body
(R201: "a model treats them as any value until the host writes them"; entry 2). A function of the address alone,
because a read is idempotent (R48) and reset does not change SRC (R201). -/
opaque srcPowerUp : Addr → Byte

end Sys2Proof.Config
end

