-- ==== Sys2Proof/Syntax.lean ====
section
/-! DEFINITION. The commands of the block: one constructor per row of spec/opcode_table.json (spec/30_encoding.md R65),
with the operands of the row's format at the widths of R64. -/

namespace Sys2Proof

/-- The order mode ORD of a sequence (R28, R64): which nibble of each byte is yielded first. -/
inductive Order where
  /-- ORD = 0: the high nibble first. -/
  | highFirst
  /-- ORD = 1: the low nibble first. -/
  | lowFirst
  deriving DecidableEq, Repr

/-- A command of the block. Every operand is in range by its width (R64); only a channel index can still name nothing
(R69: `cmd[27:26] >= NCH`), which `Instr.wellFormed` checks. -/
inductive Instr where
  /-- NVAL: validated construction of a nibble from an integer (R100). -/
  | nval (v : Int28)
  /-- NMASK: masking construction of a nibble from an integer (R101). -/
  | nmask (v : Int28)
  /-- HEXP: parse a nibble from a hexadecimal character (R103). -/
  | hexp (c : CodePoint)
  /-- NTOI: convert a nibble to an integer (R102). -/
  | ntoi (n : Nibble)
  /-- HEXR: render a nibble as a hexadecimal character (R104). -/
  | hexr (n : Nibble)
  /-- SPLIT: split a byte into its pair of nibbles (R122). -/
  | split (b : Byte)
  /-- COMB: combine a pair of nibbles, high first, into a byte (R123). -/
  | comb (h l : Nibble)
  /-- SCREATE: create or re-create the sequence of a channel (R141). -/
  | screate (c : ChanIx) (o : Order) (base : Addr) (len : Count)
  /-- SADV: advance a channel by one nibble (R142). -/
  | sadv (c : ChanIx)
  deriving DecidableEq, Repr

end Sys2Proof
end

