-- ==== Sys2Proof/WellFormed.lean ====
section
/-! DEFINITION. Which commands exist on a block with `nch` channels (spec/30_encoding.md R69). -/

namespace Sys2Proof

/-- The channel a command names, if it names one (formats S and A, R63). -/
def Instr.channel? : Instr → Option ChanIx
  | .nval _ => none
  | .nmask _ => none
  | .hexp _ => none
  | .ntoi _ => none
  | .hexr _ => none
  | .split _ => none
  | .comb _ _ => none
  | .screate c _ _ _ => some c
  | .sadv c => some c

/-- A command is well formed on a block with `nch` channels if the channel it names exists (R69, R174 (c)).
No other check is left: every other operand is in range by its width (R64). -/
def Instr.wellFormed (nch : Nat) (i : Instr) : Bool :=
  match i.channel? with
  | none => true
  | some c => decide (c.toNat < nch)

end Sys2Proof
end

