-- ==== Sys2Proof/Decode.lean ====
section
/-! DEFINITION. The decoder of spec/30_encoding.md R69, total on all 2^32 words and on every NCH, rejecting by name;
after it the encoder, from the formats of R63 and the opcode map of R65; and the table word of the host's check. -/

namespace Sys2Proof

/-! ### Names of the table -/

/-- The nine mnemonics of the opcode map (R65). -/
inductive Mnemonic where
  | NVAL | NMASK | HEXP | NTOI | HEXR | SPLIT | COMB | SCREATE | SADV
  deriving DecidableEq, Repr

/-- The seven operand formats (R63). -/
inductive Format where
  | I | C | N | B | P | S | A
  deriving DecidableEq, Repr

/-- Why a word encodes no command (R174), in the order in which the causes are tested (R176). -/
inductive IllegalCause where
  /-- (a) OP is 0x0 or one of 0xA to 0xF (R66). -/
  | reservedOpcode
  /-- (b) a reserved bit of the format is 1 (R67). -/
  | reservedBit
  /-- (c) SCREATE or SADV names a channel ≥ NCH (R69). -/
  | noSuchChannel
  deriving DecidableEq, Repr

/-- What decoding gives: a command, or ILLEGAL with its cause (R69). The cause is not visible in the response (R176). -/
inductive Decoded where
  | command (i : Instr)
  | illegal (why : IllegalCause)
  deriving DecidableEq, Repr

/-- One row of the opcode table: a word belongs to it if `word &&& maskBits = matchBits` (R69, R70). -/
structure OpRow where
  mnemonic : Mnemonic
  format : Format
  matchBits : Word
  maskBits : Word
  deriving DecidableEq, Repr

/-- The opcode table with the match and mask words of R70 (spec/opcode_table.json). -/
def opcodeTable : List OpRow := [
  ⟨.NVAL,    .I, 0x10000000, 0xF0000000⟩,
  ⟨.NMASK,   .I, 0x20000000, 0xF0000000⟩,
  ⟨.HEXP,    .C, 0x30000000, 0xFFE00000⟩,
  ⟨.NTOI,    .N, 0x40000000, 0xFFFFFFF0⟩,
  ⟨.HEXR,    .N, 0x50000000, 0xFFFFFFF0⟩,
  ⟨.SPLIT,   .B, 0x60000000, 0xFFFFFF00⟩,
  ⟨.COMB,    .P, 0x70000000, 0xFFFFFF00⟩,
  ⟨.SCREATE, .S, 0x80000000, 0xF1000000⟩,
  ⟨.SADV,    .A, 0x90000000, 0xF3FFFFFF⟩ ]

/-! ### Operand fields (R64) -/

/-- OP = cmd[31:28] (R60). -/
def fieldOP (cmd : Word) : BitVec 4 := cmd.extractLsb' 28 4
/-- V28 = cmd[27:0]. -/
def fieldV28 (cmd : Word) : Int28 := cmd.extractLsb' 0 28
/-- CP21 = cmd[20:0]. -/
def fieldCP21 (cmd : Word) : CodePoint := cmd.extractLsb' 0 21
/-- N4 = cmd[3:0]. -/
def fieldN4 (cmd : Word) : Nibble := cmd.extractLsb' 0 4
/-- B8 = cmd[7:0]. -/
def fieldB8 (cmd : Word) : Byte := cmd.extractLsb' 0 8
/-- H4 = cmd[7:4]. -/
def fieldH4 (cmd : Word) : Nibble := cmd.extractLsb' 4 4
/-- L4 = cmd[3:0]. -/
def fieldL4 (cmd : Word) : Nibble := cmd.extractLsb' 0 4
/-- CH2 = cmd[27:26]. -/
def fieldCH2 (cmd : Word) : ChanIx := cmd.extractLsb' 26 2
/-- BASE12 = cmd[23:12]. -/
def fieldBASE12 (cmd : Word) : Addr := cmd.extractLsb' 12 12
/-- LEN12 = cmd[11:0]. -/
def fieldLEN12 (cmd : Word) : Count := cmd.extractLsb' 0 12

/-- The order mode of an ORD bit: 0 is HighFirst, 1 is LowFirst (R64, D7). -/
def Order.ofBit (b : Bool) : Order := if b then .lowFirst else .highFirst

/-- The ORD bit of an order mode (R28, D7). -/
def Order.toBit : Order → BitVec 1
  | .highFirst => 0
  | .lowFirst => 1

/-- ORD = cmd[25]. -/
def fieldORD (cmd : Word) : Order := Order.ofBit (cmd.getLsbD 25)

/-! ### The decoder -/

/-- The row whose opcode is the word's opcode; there is none for OP 0x0 and 0xA to 0xF (R65, R66, R69). -/
def findRow (cmd : Word) : Option OpRow :=
  opcodeTable.find? (fun r => fieldOP r.matchBits == fieldOP cmd)

/-- The command of a mnemonic with its operands read from the word (R64, R69 last line). -/
def Mnemonic.read : Mnemonic → Word → Instr
  | .NVAL, cmd => .nval (fieldV28 cmd)
  | .NMASK, cmd => .nmask (fieldV28 cmd)
  | .HEXP, cmd => .hexp (fieldCP21 cmd)
  | .NTOI, cmd => .ntoi (fieldN4 cmd)
  | .HEXR, cmd => .hexr (fieldN4 cmd)
  | .SPLIT, cmd => .split (fieldB8 cmd)
  | .COMB, cmd => .comb (fieldH4 cmd) (fieldL4 cmd)
  | .SCREATE, cmd => .screate (fieldCH2 cmd) (fieldORD cmd) (fieldBASE12 cmd) (fieldLEN12 cmd)
  | .SADV, cmd => .sadv (fieldCH2 cmd)

/-- Whether a format carries a channel index (R69: `row.format in {S, A}`). -/
def Format.hasChannel : Format → Bool
  | .I => false
  | .C => false
  | .N => false
  | .B => false
  | .P => false
  | .S => true
  | .A => true

/-- The decoder of R69, its tests in the order of R176: opcode, reserved bits, channel. -/
def decode (nch : Nat) (cmd : Word) : Decoded :=
  match findRow cmd with
  | none => .illegal .reservedOpcode
  | some row =>
    if cmd &&& row.maskBits ≠ row.matchBits then .illegal .reservedBit
    else if row.format.hasChannel = true ∧ nch ≤ (fieldCH2 cmd).toNat then .illegal .noSuchChannel
    else .command (row.mnemonic.read cmd)

/-! ### The encoder -/

/-- The word of a command, its fields side by side as R63 draws them under the opcodes of R65. -/
def encode : Instr → Word
  | .nval v => 0x1#4 ++ v
  | .nmask v => 0x2#4 ++ v
  | .hexp c => 0x3#4 ++ 0#7 ++ c
  | .ntoi n => 0x4#4 ++ 0#24 ++ n
  | .hexr n => 0x5#4 ++ 0#24 ++ n
  | .split b => 0x6#4 ++ 0#20 ++ b
  | .comb h l => 0x7#4 ++ 0#20 ++ h ++ l
  | .screate c o base len => 0x8#4 ++ c ++ o.toBit ++ 0#1 ++ base ++ len
  | .sadv c => 0x9#4 ++ c ++ 0#26

/-! ### The table's words -/

/-- A word of the opcode table as a command word: bit 0 is cmd[0] (R6, R45), and the bits above `nbits` are 0.
Every command is exactly one 32-bit word (R60, R71; entry 14). -/
def tableWord (nbits w : Nat) : Word := BitVec.ofNat 32 (w % 2 ^ nbits)

/-- The command the decoder reads from a table word, on the block that `State.reset` starts (NCH = `Config.nch`). -/
def decodeTableWord (nbits w : Nat) : Option Instr :=
  match decode Config.nch (tableWord nbits w) with
  | .command i => some i
  | .illegal _ => none

end Sys2Proof
end

