-- ==== Sys2Proof/Machine/State.lean ====
section
/-! DEFINITION. The state of the machine as plain data: the channel register file of the block (spec/10_state.md R20),
the source memory SRC of the host (spec/20_memory.md R40), and the host's side of the interface: what it does next and
what it has received (spec/30_encoding.md R60). Reset: spec/70_reset_and_hazards.md R200. -/

namespace Sys2Proof.Machine

/-- The sub-byte position POS (R27). -/
inductive SubPos where
  /-- POS = 0: about to yield the first nibble of the current byte. -/
  | first
  /-- POS = 1: about to yield the second. -/
  | second
  deriving DecidableEq, Repr

/-- One channel of the sequence unit: five fields, 38 bits (R20, R24 to R28). -/
structure Channel where
  /-- BASE: the SRC address of byte 0 of the source sequence (R24). -/
  base : Addr
  /-- LEN: the length in bytes of the source sequence (R25). -/
  len : Count
  /-- IDX: the index of the current byte; also the bytes whose two nibbles have both been yielded (R26). -/
  idx : Count
  /-- POS: the sub-byte position (R27). -/
  pos : SubPos
  /-- ORD: the order mode (R28). -/
  ord : Order
  deriving DecidableEq, Repr

/-- The STATUS of a response (R62). -/
inductive Status where
  /-- OK, 0x0: the command completed. -/
  | ok
  /-- END, 0x1: the end-of-sequence signal of SADV, not an error (R173). -/
  | exhausted
  /-- RANGE, 0x2: RangeError, from NVAL only (R171). -/
  | range
  /-- PARSE, 0x3: ParseError, from HEXP only (R172). -/
  | parse
  /-- ILLEGAL, 0xF: the word encodes no command (R174). -/
  | illegal
  deriving DecidableEq, Repr

/-- What the host can do to the block, one at a time and between commands (R42, R51, R60, R200; entry 3). -/
inductive HostEvent where
  /-- Present one command word (R60). -/
  | command (cmd : Word)
  /-- Write one byte of SRC (R42). -/
  | write (a : Addr) (b : Byte)
  /-- Reset the block, as a step of its own (R200). -/
  | reset
  deriving DecidableEq, Repr

/-- The machine's state. `ch` is all the block itself holds (R20); `src` is the host's memory (R42); `port`, `rsps` and
`reads` are the interface as the host sees it, and no command reads them (entries 3, 5 and 6). -/
structure State where
  /-- The channel register file `ch[0..NCH-1]` (R20). Its length is NCH (entry 1). -/
  ch : List Channel
  /-- SRC: the bytes the host has written, addresses strictly rising (`Memory.wf`; R40, entry 2). -/
  src : List Host.Cell
  /-- What the host does next, the oldest first (R42, R51, R60; entry 3). -/
  port : List HostEvent
  /-- The response words given so far, the oldest first (R60, R208; entry 5). -/
  rsps : List Word
  /-- The SRC addresses the block has read so far, the oldest first (R41; entry 6). -/
  reads : List Addr
  deriving DecidableEq, Repr

/-- Why the machine stops with a fault: never. R188: "A model therefore has no stuck state for the block", and R170:
an error is a response status. The type has no constructor, so no step can answer a fault (entry 11). -/
inductive Fault where
  deriving DecidableEq, Repr

/-- Why an instruction has no meaning. -/
inductive Refusal where
  /-- Raised only by an arm of `exec` whose command has no meaning yet. No arm uses it, so no step raises it.
  Safe: a refused command proves nothing. -/
  | notModelled (mnemonic : String)
  deriving DecidableEq, Repr

/-- The reset values of a channel's fields, all 0 (R24 to R28, R36). -/
def Channel.reset : Channel :=
  { base := 0, len := 0, idx := 0, pos := .first, ord := .highFirst }

/-- A block with `nch` channels right after reset (R36, R200), its host having written nothing to SRC (R201), presented
nothing and received nothing (entries 2, 3, 5 and 6). -/
def State.resetWith (nch : Nat) : State :=
  { ch := List.replicate nch Channel.reset, src := [], port := [], rsps := [], reads := [] }

/-- The machine right after reset, with the NCH of `Config.nch` (entry 1). -/
def State.reset : State := State.resetWith Config.nch

end Sys2Proof.Machine
end

