-- ==== Sys2Proof/Machine/Ops.lean ====
section
/-! DEFINITION. The named operations over SRC, over the channel register file and over the response port that every meaning
uses. The block has no trap: "taking an exception" is giving a response with an error status (spec/60_exceptions.md
R170, R179), said once here (`State.raise`, `State.illegal`), and there is no return from one (R180). -/

namespace Sys2Proof.Machine

/-! ### SRC (spec/20_memory.md) -/

/-- What SRC reads as at an address the host has not written: any value (R201; entry 2). -/
def unwrittenByte (a : Addr) : Byte := Config.srcPowerUp a

/-- The byte the host last wrote at address `a`, or none if it has written none. -/
def Memory.lookup : List Host.Cell → Nat → Option Byte
  | [], _ => none
  | (k, b) :: rest, a => if k = a then some b else Memory.lookup rest a

/-- Write one byte, keeping the addresses strictly rising. -/
def Memory.store : List Host.Cell → Nat → Byte → List Host.Cell
  | [], a, b => [(a, b)]
  | (k, v) :: rest, a, b =>
    if a < k then (a, b) :: (k, v) :: rest
    else if a = k then (a, b) :: rest
    else (k, v) :: Memory.store rest a b

/-- The canonical form of SRC: addresses strictly rising and below 4096 (R40). An address the host has not written is
unlisted and holds no written byte (`Memory.lookup` gives none), so no listed entry can equal what an unlisted address
holds, and equal write histories per address are equal data (entry 2). -/
abbrev Memory.wf (m : List Host.Cell) : Prop :=
  m.Pairwise (fun x y => x.1 < y.1) ∧ ∀ x ∈ m, x.1 < Config.srcBytes

/-- The byte of SRC at address `a` (R40). -/
def State.srcByte (s : State) (a : Addr) : Byte :=
  (Memory.lookup s.src a.toNat).getD (unwrittenByte a)

/-- The block's one memory operation `SrcRead(a) = MemRead(a, 1)` (R8, R41): one byte, recorded in `reads` (entry 6).
It changes nothing of SRC and nothing a command reads (R48). -/
def State.srcRead (s : State) (a : Addr) : Byte × State :=
  (s.srcByte a, { s with reads := s.reads ++ [a] })

/-- The host writes one byte of SRC between two commands (R42, R51). -/
def State.hostWrite (s : State) (a : Addr) (b : Byte) : State :=
  { s with src := Memory.store s.src a.toNat b }

/-! ### The channel register file (spec/10_state.md) -/

/-- NCH, the number of channels the block has (R5, R20). -/
def State.nch (s : State) : Nat := s.ch.length

/-- `ch[c]`, or none if c ≥ NCH (R20). -/
def State.chan? (s : State) (c : ChanIx) : Option Channel := s.ch[c.toNat]?

/-- Write all fields of `ch[c]`, and of no other channel (R33). -/
def State.setChan (s : State) (c : ChanIx) (k : Channel) : State :=
  { s with ch := s.ch.set c.toNat k }

/-- The other sub-byte position: SADV toggles POS (R27). -/
def SubPos.flip : SubPos → SubPos
  | .first => .second
  | .second => .first

/-- A channel is exhausted exactly when IDX = LEN (R30). -/
def Channel.isExhausted (k : Channel) : Bool := k.idx == k.len

/-- The cursor after one nibble has been yielded (R142): POS toggles, and IDX moves on after the second nibble.
IDX is a 12-bit register; R142 notes that it cannot overflow, since IDX < LEN there (R29). -/
def Channel.advance (k : Channel) : Channel :=
  match k.pos with
  | .first => { k with pos := k.pos.flip }
  | .second => { k with pos := k.pos.flip, idx := k.idx + 1 }

/-- A freshly created sequence: the cursor at the start (R141). -/
def Channel.create (o : Order) (base : Addr) (len : Count) : Channel :=
  { base := base, len := len, idx := 0, pos := .first, ord := o }

/-- Reset of the block (R200): every field of every channel takes its reset value. SRC is not changed (R201), no response
is given, and what the host does next is the host's (entry 8). -/
def State.resetBlock (s : State) : State :=
  { s with ch := List.replicate s.nch Channel.reset }

/-! ### Responses (spec/30_encoding.md R61, R62; spec/60_exceptions.md R170 to R179) -/

/-- The STATUS codes (R62). -/
def Status.code : Status → BitVec 4
  | .ok => 0x0
  | .exhausted => 0x1
  | .range => 0x2
  | .parse => 0x3
  | .illegal => 0xF

/-- The response word `{status[3:0], result[27:0]}` (R8, R61). -/
def responseWord (st : Status) (result : BitVec 28) : Word := st.code ++ result

/-- `respond(status, result)`: end the command with its one response word (R8, R60). -/
def State.respond (s : State) (st : Status) (result : BitVec 28) : State :=
  { s with rsps := s.rsps ++ [responseWord st result] }

/-- `raise E(info)`: an error is only a response status (R8, R170). Nothing is saved, no mode changes, control goes
nowhere (R179). -/
def State.raise (s : State) (e : Status) (info : BitVec 28) : State := s.respond e info

/-- ILLEGAL, the response to a word that encodes no command: RESULT = 0, no state change (R35, R174, R178). -/
def State.illegal (s : State) : State := s.raise .illegal 0

end Sys2Proof.Machine
end

