-- ==== Sys2Proof/Machine/Operands.lean ====
section
/-! DEFINITION. The datapath on operands: zero extension (spec/00_scope.md R7), the extractor and the packer
(spec/41_codec.md R120, R121), the multiplexer's select (spec/42_sequence.md R143), the address of a source byte
(spec/20_memory.md R47) and the hexadecimal alphabet (spec/40_value.md R105). -/

namespace Sys2Proof.Machine

/-- `zext_28(v)` (R7). No rule sign-extends. -/
def zext28 {w : Nat} (v : BitVec w) : BitVec 28 := v.setWidth 28

/-- `v[3:0]`, the low four bits of an integer operand (R100, R101). -/
def low4 {w : Nat} (v : BitVec w) : Nibble := v.extractLsb' 0 4

/-- The extractor: a 4-bit field shifter and mask, `hi ? ((b >> 4) & 0xF) : (b & 0xF)` (R120). -/
def extract (b : Byte) (hi : Bool) : Nibble :=
  if hi then ((b >>> 4) &&& 0xF#8).setWidth 4 else (b &&& 0xF#8).setWidth 4

/-- The high nibble of a byte (R120). -/
def nibHigh (b : Byte) : Nibble := extract b true

/-- The low nibble of a byte (R120). -/
def nibLow (b : Byte) : Nibble := extract b false

/-- The packer: `(h << 4) | l`, 8 bits (R121). -/
def pack (h l : Nibble) : Byte := (h.setWidth 8 <<< 4) ||| l.setWidth 8

/-- The pair `{h, l}` in its natural lanes, high first (R11, R122, D25). -/
def pairBits (h l : Nibble) : BitVec 8 := h ++ l

/-- The multiplexer's select bit: `hi = (POS == 0) XOR (ORD == 1)` (R142, R143). -/
def muxSelect (pos : SubPos) (ord : Order) : Bool := Bool.xor (pos == .first) (ord == .lowFirst)

/-- The SRC address of the channel's current byte: `(BASE + IDX) mod 4096`, which is 12-bit addition (R47, R142). -/
def Channel.addr (k : Channel) : Addr := k.base + k.idx

/-- The code point HEXR gives a nibble: '0' to '9', then 'a' to 'f', always lower case (R104, R105). -/
def hexCode (n : Nibble) : BitVec 28 :=
  if n ≤ 9#4 then 0x30#28 + zext28 n else 0x61#28 + (zext28 n - 10#28)

/-- The nibble HEXP reads from a code point, or none if it is not one of the 22 hex digits (R103, R105). -/
def hexNibble (c : CodePoint) : Option Nibble :=
  if 0x30#21 ≤ c ∧ c ≤ 0x39#21 then some (low4 (c - 0x30#21))
  else if 0x41#21 ≤ c ∧ c ≤ 0x46#21 then some (low4 (c - 0x41#21 + 10#21))
  else if 0x61#21 ≤ c ∧ c ≤ 0x66#21 then some (low4 (c - 0x61#21 + 10#21))
  else none

end Sys2Proof.Machine
end

