-- ==== Sys2Proof/Machine/Codec.lean ====
section
/-! DEFINITION. The codec: SPLIT and COMB (spec/41_codec.md). Combinational (spec/10_state.md R34). -/

namespace Sys2Proof.Machine

/-- SPLIT (R122): always OK with RESULT[7:4] the high nibble and RESULT[3:0] the low nibble. -/
def execSplit (b : Byte) (s : State) : Host.Outcome State Fault Refusal :=
  .next (s.respond .ok (zext28 (pairBits (nibHigh b) (nibLow b))))

/-- COMB (R123): always OK with the byte `(h << 4) | l`. -/
def execComb (h l : Nibble) (s : State) : Host.Outcome State Fault Refusal :=
  .next (s.respond .ok (zext28 (pack h l)))

end Sys2Proof.Machine
end

