-- ==== Sys2Proof/Machine/Flags.lean ====
section
/-! DEFINITION. The block has no flags (spec/10_state.md R23): what a command reports is the STATUS of its own response. This
file holds the conditions of NVAL and SADV (spec/60_exceptions.md R171, R173, R175). HEXP's condition (R172) is that
`hexNibble` reads no digit (Operands.lean), and ILLEGAL is the decoder's (Decode.lean, R174). -/

namespace Sys2Proof.Machine

/-- RANGE is given exactly when the operand of NVAL is outside [0,15] (R100, R171). -/
def outOfRange (v : Int28) : Bool := decide (15#28 < v)

/-- NVAL's status (R175). -/
def nvalStatus (v : Int28) : Status := if outOfRange v then .range else .ok

/-- SADV's status on an existing channel (R173, R175). -/
def sadvStatus (k : Channel) : Status := if k.isExhausted then .exhausted else .ok

end Sys2Proof.Machine
end

