-- ==== Sys2Proof/Machine/Sequence.lean ====
section
/-! DEFINITION. The sequence unit: SCREATE and SADV (spec/42_sequence.md). The decoder has already checked that the channel exists
(R69); for a channel that does not, both meanings give ILLEGAL, the status R174 (c) names for it (entry 7). -/

namespace Sys2Proof.Machine

/-- SCREATE (R141): writes all five fields of `ch[c]`, reads nothing, and gives OK, 0. -/
def execScreate (c : ChanIx) (o : Order) (base : Addr) (len : Count) (s : State) : Host.Outcome State Fault Refusal :=
  match s.chan? c with
  | none => .next s.illegal
  | some _ => .next ((s.setChan c (Channel.create o base len)).respond .ok 0)

/-- The yielding case of SADV (R142) on channel `c`, which holds `k`: one SRC read, one nibble, one cursor move. -/
def yieldNibble (c : ChanIx) (k : Channel) (s : State) : State :=
  let (b, s1) := s.srcRead k.addr
  (s1.setChan c k.advance).respond .ok (zext28 (extract b (muxSelect k.pos k.ord)))

/-- SADV (R142): END with no read and no state change on an exhausted channel, else the next nibble. -/
def execSadv (c : ChanIx) (s : State) : Host.Outcome State Fault Refusal :=
  match s.chan? c with
  | none => .next s.illegal
  | some k =>
    match sadvStatus k with
    | .ok => .next (yieldNibble c k s)
    | e => .next (s.respond e 0)

end Sys2Proof.Machine
end

