-- ==== Sys2Proof/Machine/ValueUnit.lean ====
section
/-! DEFINITION. The value unit: NVAL, NMASK, NTOI, HEXP, HEXR (spec/40_value.md). Combinational: no meaning here reads or writes
a channel or SRC (spec/10_state.md R34). -/

namespace Sys2Proof.Machine

/-- NVAL (R100): OK with the nibble, or RANGE with the offending value; never truncated. -/
def execNval (v : Int28) (s : State) : Host.Outcome State Fault Refusal :=
  match nvalStatus v with
  | .ok => .next (s.respond .ok (zext28 (low4 v)))
  | e => .next (s.raise e v)

/-- NMASK (R101): always OK with the low 4 bits. -/
def execNmask (v : Int28) (s : State) : Host.Outcome State Fault Refusal :=
  .next (s.respond .ok (zext28 (low4 v)))

/-- NTOI (R102): always OK with the nibble zero-extended. -/
def execNtoi (n : Nibble) (s : State) : Host.Outcome State Fault Refusal :=
  .next (s.respond .ok (zext28 n))

/-- HEXP (R103): OK with the digit's value, or PARSE with the offending code point. -/
def execHexp (c : CodePoint) (s : State) : Host.Outcome State Fault Refusal :=
  match hexNibble c with
  | some n => .next (s.respond .ok (zext28 n))
  | none => .next (s.raise .parse (zext28 c))

/-- HEXR (R104): always OK with the lower-case code point. -/
def execHexr (n : Nibble) (s : State) : Host.Outcome State Fault Refusal :=
  .next (s.respond .ok (hexCode n))

end Sys2Proof.Machine
end

