-- ==== Sys2Proof/Machine/Dispatch.lean ====
section
/-! DEFINITION. The dispatch: one arm per command, each one call of its meaning. -/

namespace Sys2Proof.Machine

def exec (i : Instr) (s : State) : Host.Outcome State Fault Refusal :=
  match i with
  -- value unit (spec/40_value.md)
  | .nval v => Sys2Proof.Machine.execNval v s
  | .nmask v => Sys2Proof.Machine.execNmask v s
  | .hexp c => Sys2Proof.Machine.execHexp c s
  | .ntoi n => Sys2Proof.Machine.execNtoi n s
  | .hexr n => Sys2Proof.Machine.execHexr n s
  -- codec (spec/41_codec.md)
  | .split b => Sys2Proof.Machine.execSplit b s
  | .comb h l => Sys2Proof.Machine.execComb h l s
  -- sequence unit (spec/42_sequence.md)
  | .screate c o base len => Sys2Proof.Machine.execScreate c o base len s
  | .sadv c => Sys2Proof.Machine.execSadv c s

end Sys2Proof.Machine
end

