-- ==== Sys2Proof/Machine/HostPort.lean ====
section
/-! DEFINITION. What one event at the host's side of the interface does: a command word is decoded and executed, a SRC write and a
reset happen between commands (spec/20_memory.md R51, spec/70_reset_and_hazards.md R200). -/

namespace Sys2Proof.Machine

/-- The block accepts one command word (R60): it executes the command the word encodes, or gives ILLEGAL (R69, R174). -/
def acceptCommand (cmd : Word) (s : State) : Host.Outcome State Fault Refusal :=
  match decode s.nch cmd with
  | .command i => exec i s
  | .illegal _ => .next s.illegal

/-- One event, with `s` the state in which it is no longer pending. -/
def runEvent (e : HostEvent) (s : State) : Host.Outcome State Fault Refusal :=
  match e with
  | .command cmd => acceptCommand cmd s
  | .write a b => .next (s.hostWrite a b)
  | .reset => .next s.resetBlock

/-- The host presents nothing: the block waits, ready for its next command, and nothing changes (R188; entry 4). -/
def State.idle (s : State) : State := s

/-- Put a command word where the next step takes it: at the head of what the host does next. -/
def State.present (s : State) (cmd : Word) : State := { s with port := .command cmd :: s.port }

end Sys2Proof.Machine
end

