-- ==== Sys2Proof/Machine/Step.lean ====
section
/-! DEFINITION. One step of the machine: the oldest pending event of the host (spec/20_memory.md R51). The block has no program
counter and fetches nothing (spec/10_state.md R22). -/

namespace Sys2Proof.Machine

/-- One atomic step (R51, D1). -/
def step (s : State) : Host.Outcome State Fault Refusal :=
  match s.port with
  | [] => .next s.idle
  | e :: rest => runEvent e { s with port := rest }

/-- `s` with the table word `w` as the next command the host presents (entry 3: the host presents commands; nothing is
loaded or fetched). Nothing else changes. -/
def State.withFetchWord (s : State) (nbits w : Nat) : State := s.present (tableWord nbits w)

end Sys2Proof.Machine
end

