-- ==== Sys2Proof/Machine/Assembler.lean ====
section
/-! DEFINITION. The assembler of spec/30_encoding.md R72 and R73, from the text of a line (a list of characters) to the command word.
The lexical details R72 leaves open are entry 10. -/

namespace Sys2Proof.Machine

/-- A lexical unit of a line. -/
inductive Token where
  /-- A mnemonic, a number or an order name. -/
  | word (cs : List Char)
  /-- The separator of operands. -/
  | comma
  /-- A character literal `'c'`. -/
  | chr (c : Char)
  deriving DecidableEq, Repr

/-- An operand of a line (R72). -/
inductive AsmOperand where
  | num (n : Nat)
  | chr (c : Char)
  | order (o : Order)
  deriving DecidableEq, Repr

/-- Why a line does not assemble. -/
inductive AsmError where
  /-- The first word is none of the nine mnemonics (R65, R72). -/
  | unknownMnemonic
  /-- The operands do not have the command's syntax (R72). -/
  | badOperands
  /-- An operand is out of range for its field: "an assembly error; it is never truncated" (R72). -/
  | outOfRange
  deriving DecidableEq, Repr

/-- What a line assembles to. -/
inductive Assembled where
  /-- One command word. -/
  | word (w : Word)
  /-- Nothing: an empty line or only a comment. -/
  | blank
  | error (e : AsmError)
  deriving DecidableEq, Repr

/-- End the word being read, if there is one. -/
def endWord (acc : List Char) (ts : List Token) : List Token :=
  match acc with
  | [] => ts
  | c :: cs => .word (c :: cs) :: ts

/-- Cut a line into tokens. A comment starts with `;` (R72); spaces and tabs separate. `acc` is the word being read.
DESIGN CHOICE (entry 10): a character literal ends the word before it, with or without a space, so that `HEXP'f'` is
`HEXP 'f'`; so do a comma and a comment. Any other quote is an ordinary character of a word. -/
def tokens (acc : List Char) : List Char → List Token
  | [] => endWord acc []
  | '\'' :: c :: '\'' :: rest => endWord acc (.chr c :: tokens [] rest)
  | ';' :: _ => endWord acc []
  | ',' :: rest => endWord acc (.comma :: tokens [] rest)
  | ' ' :: rest => endWord acc (tokens [] rest)
  | '\t' :: rest => endWord acc (tokens [] rest)
  | c :: rest => tokens (acc ++ [c]) rest

/-- A decimal digit. -/
def decDigit (c : Char) : Option Nat :=
  if 0x30 ≤ c.toNat ∧ c.toNat ≤ 0x39 then some (c.toNat - 0x30) else none

/-- A hexadecimal digit, in either case. -/
def hexDigit (c : Char) : Option Nat :=
  if 0x61 ≤ c.toNat ∧ c.toNat ≤ 0x66 then some (c.toNat - 0x61 + 10)
  else if 0x41 ≤ c.toNat ∧ c.toNat ≤ 0x46 then some (c.toNat - 0x41 + 10)
  else decDigit c

/-- Read digits, the most significant first, onto the value `n` read so far. -/
def asmDigits (radix : Nat) (digit : Char → Option Nat) (n : Nat) : List Char → Option Nat
  | [] => some n
  | c :: rest =>
    match digit c with
    | none => none
    | some d => asmDigits radix digit (radix * n + d) rest

/-- A number: decimal, or hexadecimal after `0x` (R72). -/
def asmNumber : List Char → Option Nat
  | [] => none
  | ['0', 'x'] => none
  | '0' :: 'x' :: rest => asmDigits 16 hexDigit 0 rest
  | c :: rest => asmDigits 10 decDigit 0 (c :: rest)

/-- One operand (R72): a character literal, an order name `hf` or `lf`, or a number. -/
def asmOperand : Token → Option AsmOperand
  | .comma => none
  | .chr c => some (.chr c)
  | .word ['h', 'f'] => some (.order .highFirst)
  | .word ['l', 'f'] => some (.order .lowFirst)
  | .word cs => (asmNumber cs).map .num

/-- The operands of a line, separated by commas (R72). -/
def asmOperands : List Token → Option (List AsmOperand)
  | [] => some []
  | [t] => (asmOperand t).map (fun o => [o])
  | t :: .comma :: u :: rest =>
    match asmOperand t, asmOperands (u :: rest) with
    | some o, some os => some (o :: os)
    | _, _ => none
  | _ :: _ :: _ => none

/-- How a mnemonic is written (R65). -/
def mnemonicSpelling : Mnemonic → List Char
  | .NVAL => ['N', 'V', 'A', 'L']
  | .NMASK => ['N', 'M', 'A', 'S', 'K']
  | .HEXP => ['H', 'E', 'X', 'P']
  | .NTOI => ['N', 'T', 'O', 'I']
  | .HEXR => ['H', 'E', 'X', 'R']
  | .SPLIT => ['S', 'P', 'L', 'I', 'T']
  | .COMB => ['C', 'O', 'M', 'B']
  | .SCREATE => ['S', 'C', 'R', 'E', 'A', 'T', 'E']
  | .SADV => ['S', 'A', 'D', 'V']

/-- The mnemonic a word spells (R65). -/
def mnemonicOf (cs : List Char) : Option Mnemonic :=
  [Mnemonic.NVAL, .NMASK, .HEXP, .NTOI, .HEXR, .SPLIT, .COMB, .SCREATE, .SADV].find?
    (fun m => mnemonicSpelling m == cs)

/-- A number in a field of `w` bits: out of range is an error, never truncated (R72). -/
def inField (w n : Nat) : Except AsmError (BitVec w) :=
  if n < 2 ^ w then .ok (BitVec.ofNat w n) else .error .outOfRange

/-- SCREATE from its four numbers and its order (R72, R73). -/
def asmScreate (c : Nat) (o : Order) (base len : Nat) : Except AsmError Instr := do
  let c ← inField 2 c
  let base ← inField 12 base
  let len ← inField 12 len
  return .screate c o base len

/-- The command of a mnemonic and its operands (the table of R72; the three-operand SCREATE of R73 takes HighFirst). -/
def asmInstr : Mnemonic → List AsmOperand → Except AsmError Instr
  | .NVAL, [.num v] => (inField 28 v).map .nval
  | .NMASK, [.num v] => (inField 28 v).map .nmask
  | .HEXP, [.num c] => (inField 21 c).map .hexp
  | .HEXP, [.chr c] => (inField 21 c.toNat).map .hexp
  | .NTOI, [.num n] => (inField 4 n).map .ntoi
  | .HEXR, [.num n] => (inField 4 n).map .hexr
  | .SPLIT, [.num b] => (inField 8 b).map .split
  | .COMB, [.num h, .num l] => do
    let h ← inField 4 h
    let l ← inField 4 l
    return .comb h l
  | .SCREATE, [.num c, .order o, .num base, .num len] => asmScreate c o base len
  | .SCREATE, [.num c, .num base, .num len] => asmScreate c .highFirst base len
  | .SADV, [.num c] => (inField 2 c).map .sadv
  | _, _ => .error .badOperands

/-- Assemble one line (R72). -/
def assembleLine (line : List Char) : Assembled :=
  match tokens [] line with
  | [] => .blank
  | .word m :: rest =>
    match mnemonicOf m with
    | none => .error .unknownMnemonic
    | some m =>
      match asmOperands rest with
      | none => .error .badOperands
      | some ops =>
        match asmInstr m ops with
        | .ok i => .word (encode i)
        | .error e => .error e
  | .comma :: _ => .error .unknownMnemonic
  | .chr _ :: _ => .error .unknownMnemonic

/-- Assemble a sequence of lines into the words the host presents (R72), or the first line's error. -/
def assembleLines : List (List Char) → Except AsmError (List Word)
  | [] => .ok []
  | line :: rest =>
    match assembleLine line with
    | .error e => .error e
    | .blank => assembleLines rest
    | .word w => (assembleLines rest).map (w :: ·)

end Sys2Proof.Machine
end

