-- ==== Sys2Proof/Safety.lean ====
section
/-! DEFINITION. What a safe state and a safe run are, and the words the statements use: response fields, runs, the invariant,
the nibble sequence a span yields (spec/42_sequence.md R144), and the three causes of ILLEGAL read off the formats of
spec/30_encoding.md R63. No meaning uses anything of this file. -/

namespace Sys2Proof.Machine

/-! ### Response words (R61) -/

/-- STATUS = rsp[31:28]. -/
def statusOf (rsp : Word) : BitVec 4 := rsp.extractLsb' 28 4

/-- RESULT = rsp[27:0]. -/
def resultOf (rsp : Word) : BitVec 28 := rsp.extractLsb' 0 28

/-- The five STATUS values of R62, and no other. -/
abbrev LegalStatus (rsp : Word) : Prop :=
  statusOf rsp = 0x0#4 ∨ statusOf rsp = 0x1#4 ∨ statusOf rsp = 0x2#4 ∨ statusOf rsp = 0x3#4 ∨ statusOf rsp = 0xF#4

/-- `exec i s` completes with the response `rsp` and changes nothing else of the state. -/
def RespondsOnly (i : Instr) (s : State) (rsp : Word) : Prop :=
  exec i s = .next { s with rsps := s.rsps ++ [rsp] }

/-! ### Runs -/

/-- `s` with `evs` as all the host does next. -/
def State.withPort (s : State) (evs : List HostEvent) : State := { s with port := evs }

/-- `k` steps of the machine. -/
def runSteps (k : Nat) (s : State) : Host.Outcome State Fault Refusal := Sys2Proof.core.run k s

/-- Whether an event is a command word, which is answered with one response (R60). -/
def HostEvent.isCommand : HostEvent → Bool
  | .command _ => true
  | .write _ _ => false
  | .reset => false

/-! ### The invariant -/

/-- R29: IDX ≤ LEN, and POS = 1 implies IDX < LEN. -/
abbrev Channel.wf (k : Channel) : Prop := k.idx ≤ k.len ∧ (k.pos = .second → k.idx < k.len)

/-- What holds of every reachable state: a legal number of channels (R5), every channel well formed (R29), SRC in its
canonical form (R40), only legal statuses given (R62). -/
structure State.Inv (s : State) : Prop where
  nch_pos : 1 ≤ s.nch
  nch_le : s.nch ≤ Config.maxNch
  channels : ∀ k ∈ s.ch, k.wf
  memory : Memory.wf s.src
  statuses : ∀ r ∈ s.rsps, LegalStatus r

/-! ### The sequence of a channel (R31, R144) -/

/-- POS as a number (R27). -/
def SubPos.toNat : SubPos → Nat
  | .first => 0
  | .second => 1

/-- `remaining(c) = 2 × (LEN − IDX) − POS` (R31). -/
def Channel.remaining (k : Channel) : Nat := 2 * (k.len.toNat - k.idx.toNat) - k.pos.toNat

/-- Byte `i` of the span that starts at `base`: SRC[(base + i) mod 4096] (R44, R144). -/
def State.spanByte (s : State) (base : Addr) (i : Nat) : Byte := s.srcByte (BitVec.ofNat 12 (base.toNat + i))

/-- nibble_k of R144: `i = k div 2`, and the order decides which half of byte `i` the even `k` gives. -/
def State.nibbleAt (s : State) (o : Order) (base : Addr) (k : Nat) : Nibble :=
  match o with
  | .highFirst => if k % 2 = 0 then (s.spanByte base (k / 2)).extractLsb' 4 4 else (s.spanByte base (k / 2)).extractLsb' 0 4
  | .lowFirst => if k % 2 = 0 then (s.spanByte base (k / 2)).extractLsb' 0 4 else (s.spanByte base (k / 2)).extractLsb' 4 4

/-- The response to the SADV number `k` (from 0) after SCREATE: OK with nibble_k for the first `2 × len`, then END (R144). -/
def State.sequenceResponse (s : State) (o : Order) (base : Addr) (len : Count) (k : Nat) : Word :=
  if k < 2 * len.toNat then 0#28 ++ s.nibbleAt o base k else 0x10000000

/-- The channel after `k` nibbles of the sequence have been yielded (R141, R142). -/
def cursorAt (o : Order) (base : Addr) (len : Count) (k : Nat) : Channel :=
  { base := base, len := len, idx := BitVec.ofNat 12 (k / 2), pos := if k % 2 = 0 then .first else .second, ord := o }

/-- The event is an SADV on channel `c`. -/
def HostEvent.advances (c : ChanIx) (e : HostEvent) : Bool := e == .command (encode (.sadv c))

/-- The event is no SCREATE on channel `c`. -/
def HostEvent.NoCreate (c : ChanIx) (e : HostEvent) : Prop :=
  ∀ o base len, e ≠ .command (encode (.screate c o base len))

/-- R144's premise on what comes between: no SCREATE on `c`, no reset, and no host write to the span. Any other command
word, any SRC write elsewhere, may come. -/
def HostEvent.KeepsSequence (c : ChanIx) (base : Addr) (len : Count) (e : HostEvent) : Prop :=
  e.NoCreate c ∧ e ≠ .reset ∧ ∀ a b, e = .write a b → ∀ i < len.toNat, a ≠ BitVec.ofNat 12 (base.toNat + i)

/-! ### The table of R70 -/

/-- The match and mask of each row (R70), and whether its format carries a channel (R63, R69), written out here again. -/
def specRows : List (Word × Word × Bool) := [
  (0x10000000, 0xF0000000, false), (0x20000000, 0xF0000000, false), (0x30000000, 0xFFE00000, false),
  (0x40000000, 0xFFFFFFF0, false), (0x50000000, 0xFFFFFFF0, false), (0x60000000, 0xFFFFFF00, false),
  (0x70000000, 0xFFFFFF00, false), (0x80000000, 0xF1000000, true), (0x90000000, 0xF3FFFFFF, true) ]

/-! ### The causes of ILLEGAL (R174), read off R63 and R65 -/

/-- (a) OP is 0x0 or one of 0xA to 0xF (R66). -/
abbrev ReservedOpcode (cmd : Word) : Prop :=
  (cmd.extractLsb' 28 4).toNat = 0 ∨ 10 ≤ (cmd.extractLsb' 28 4).toNat

/-- (b) OP is defined and a bit R63 draws as 0 in its format is 1 (R67). -/
abbrev ReservedBit (cmd : Word) : Prop :=
  ((cmd.extractLsb' 28 4).toNat = 3 ∧ cmd.extractLsb' 21 7 ≠ 0#7) ∨
  ((cmd.extractLsb' 28 4).toNat = 4 ∧ cmd.extractLsb' 4 24 ≠ 0#24) ∨
  ((cmd.extractLsb' 28 4).toNat = 5 ∧ cmd.extractLsb' 4 24 ≠ 0#24) ∨
  ((cmd.extractLsb' 28 4).toNat = 6 ∧ cmd.extractLsb' 8 20 ≠ 0#20) ∨
  ((cmd.extractLsb' 28 4).toNat = 7 ∧ cmd.extractLsb' 8 20 ≠ 0#20) ∨
  ((cmd.extractLsb' 28 4).toNat = 8 ∧ cmd.getLsbD 24 = true) ∨
  ((cmd.extractLsb' 28 4).toNat = 9 ∧ cmd.extractLsb' 0 26 ≠ 0#26)

/-- (c) OP is SCREATE or SADV and CH2 ≥ NCH (R69). -/
abbrev NoSuchChannel (nch : Nat) (cmd : Word) : Prop :=
  ((cmd.extractLsb' 28 4).toNat = 8 ∨ (cmd.extractLsb' 28 4).toNat = 9) ∧ nch ≤ (cmd.extractLsb' 26 2).toNat

end Sys2Proof.Machine
end

