-- ==== Sys2Proof/Certificates/Slice0/Obligations.lean ====
section
/-! DEFINITION. The statements for the provers. Each docstring names the rule of spec/ it formalises. Words are written out from
the spec (a response is STATUS ++ RESULT, R61), not with the model's own operations, wherever the spec gives them. -/

open Sys2Proof Sys2Proof.Machine

/-! ### Encoding (spec/30_encoding.md) -/

/-- Decode and encode agree: every well-formed command comes back from its word, with every operand at every value
(R63, R64, R69). -/
def Obligations.DecodeOfEncodeIsTheCommand : Prop :=
  ∀ (nch : Nat) (i : Instr), i.wellFormed nch = true → decode nch (encode i) = .command i

/-- Each word has one meaning: a word that decodes to a command is that command's word, and the command is well formed
(R69: "Each of the 2^32 words decodes to exactly one outcome"). -/
def Obligations.EncodeOfDecodeIsTheWord : Prop :=
  ∀ (nch : Nat) (cmd : Word) (i : Instr), decode nch cmd = .command i → encode i = cmd ∧ i.wellFormed nch = true

/-- The match and mask words of the nine rows (R70), with whether the format carries a channel, decide which words are commands,
and no word matches two rows (R69). -/
def Obligations.MatchAndMaskDecideTheCommands : Prop :=
  ∀ (nch : Nat) (w : Word),
    ((∃ i, decode nch w = .command i) ↔
      ∃ r ∈ specRows, w &&& r.2.1 = r.1 ∧ (r.2.2 = true → (w.extractLsb' 26 2).toNat < nch)) ∧
    (∀ r ∈ specRows, ∀ q ∈ specRows, w &&& r.2.1 = r.1 → w &&& q.2.1 = q.1 → r = q)

/-- R66: a command word with a reserved OP executes as ILLEGAL, whatever its other 28 bits hold; the all-zero word too. -/
def Obligations.ReservedOpcodeIsIllegal : Prop :=
  (∀ (s : State) (w : Word) (rest : List HostEvent), s.port = .command w :: rest → ReservedOpcode w →
    step s = .next { s with port := rest, rsps := s.rsps ++ [0xF0000000] }) ∧
  ReservedOpcode 0x00000000

/-- R67: a command word with a defined OP and a 1 in any reserved bit of its format executes as ILLEGAL. -/
def Obligations.ReservedBitIsIllegal : Prop :=
  ∀ (s : State) (w : Word) (rest : List HostEvent), s.port = .command w :: rest → ReservedBit w →
    step s = .next { s with port := rest, rsps := s.rsps ++ [0xF0000000] }

/-- R174: ILLEGAL is given for exactly its three causes, with RESULT = 0. -/
def Obligations.IllegalForExactlyItsCauses : Prop :=
  ∀ (s : State) (w : Word) (rest : List HostEvent), s.port = .command w :: rest →
    ∃ t rsp, step s = .next t ∧ t.rsps = s.rsps ++ [rsp] ∧
      (statusOf rsp = 0xF#4 ↔ ReservedOpcode w ∨ ReservedBit w ∨ NoSuchChannel s.nch w) ∧
      (statusOf rsp = 0xF#4 → resultOf rsp = 0 ∧ t = { s with port := rest, rsps := s.rsps ++ [rsp] })

/-- R176, step 1: decoding tests the causes of ILLEGAL in the order (a), (b), (c), and a word with none of them is a command. -/
def Obligations.DecodeTestsCausesInOrder : Prop :=
  ∀ (nch : Nat) (w : Word),
    (decode nch w = .illegal .reservedOpcode ↔ ReservedOpcode w) ∧
    (decode nch w = .illegal .reservedBit ↔ ReservedBit w) ∧
    (decode nch w = .illegal .noSuchChannel ↔ ¬ ReservedBit w ∧ NoSuchChannel nch w) ∧
    ((∃ i, decode nch w = .command i) ↔ ¬ ReservedOpcode w ∧ ¬ ReservedBit w ∧ ¬ NoSuchChannel nch w)

/-- R74: the word of each example line, and the formula for SCREATE's word. -/
def Obligations.EncodingsOfTheSpecExamples : Prop :=
  (assembleLine "NVAL 31".toList = .word 0x1000001F ∧ assembleLine "NMASK 31".toList = .word 0x2000001F ∧
   assembleLine "HEXP 'f'".toList = .word 0x30000066 ∧ assembleLine "NTOI 9".toList = .word 0x40000009 ∧
   assembleLine "HEXR 15".toList = .word 0x5000000F ∧ assembleLine "SPLIT 0x4B".toList = .word 0x6000004B ∧
   assembleLine "COMB 4, 11".toList = .word 0x7000004B ∧
   assembleLine "SCREATE 0, hf, 0x100, 2".toList = .word 0x80100002 ∧
   assembleLine "SCREATE 1, lf, 0x100, 2".toList = .word 0x86100002 ∧
   assembleLine "SADV 0".toList = .word 0x90000000 ∧ assembleLine "SADV 1".toList = .word 0x94000000) ∧
  ∀ (c : ChanIx) (o : Order) (base : Addr) (len : Count),
    encode (.screate c o base len) =
      0x80000000#32 ||| c.setWidth 32 <<< 26 ||| (if o = .lowFirst then 1#32 else 0#32) <<< 25 |||
        base.setWidth 32 <<< 12 ||| len.setWidth 32

/-- The words of 95_test_vectors.md decode to the commands they stand for, on the NCH = 2 the vectors take; words for
channel 2 and words with a reserved bit do not. -/
def Obligations.SpecWordsDecode : Prop :=
  decode 2 0x1000001F = .command (.nval 31) ∧ decode 2 0x2000ABCD = .command (.nmask 0xABCD) ∧
  decode 2 0x30000047 = .command (.hexp 0x47) ∧ decode 2 0x4000000F = .command (.ntoi 15) ∧
  decode 2 0x5000000A = .command (.hexr 10) ∧ decode 2 0x600000F0 = .command (.split 0xF0) ∧
  decode 2 0x7000000F = .command (.comb 0 15) ∧ decode 2 0x80FFF002 = .command (.screate 0 .highFirst 0xFFF 2) ∧
  decode 2 0x94000000 = .command (.sadv 1) ∧ decode 2 0x98000000 = .illegal .noSuchChannel ∧
  decode 2 0x81000000 = .illegal .reservedBit ∧ decode 2 0x00000000 = .illegal .reservedOpcode

/-! ### Steps and runs -/

/-- A step runs the decoded command: the word at the head of the port, decoded, executed with the event taken off the port. -/
def Obligations.StepRunsTheDecodedCommand : Prop :=
  ∀ (s : State) (w : Word) (rest : List HostEvent) (i : Instr), s.port = .command w :: rest →
    decode s.nch w = .command i → step s = exec i { s with port := rest }

/-- R188: every command the block accepts completes with exactly one response; the block never stops. -/
def Obligations.EveryCommandCompletesWithOneResponse : Prop :=
  (∀ (s : State) (w : Word) (rest : List HostEvent), s.port = .command w :: rest →
    ∃ t rsp, step s = .next t ∧ t.port = rest ∧ t.rsps = s.rsps ++ [rsp]) ∧
  (∀ (n : Nat) (s : State), ∃ t, runSteps n s = .next t)

/-- R208: over any run, each command has one response, and the responses given earlier come first. -/
def Obligations.ResponsesFollowCommandOrder : Prop :=
  ∀ (s : State) (evs later rest : List HostEvent),
    ∃ t u, runSteps evs.length (s.withPort (evs ++ later ++ rest)) = .next t ∧
      runSteps (evs ++ later).length (s.withPort (evs ++ later ++ rest)) = .next u ∧
      ∃ first second, t.rsps = s.rsps ++ first ∧ u.rsps = s.rsps ++ first ++ second ∧
        first.length = evs.countP HostEvent.isCommand ∧ second.length = later.countP HostEvent.isCommand

/-- The block never gives a STATUS other than the five of the table (R62). -/
def Obligations.OnlyLegalStatuses : Prop :=
  ∀ (s t : State), step s = .next t → ∀ r ∈ t.rsps, r ∈ s.rsps ∨ LegalStatus r

/-- A host write (R42) is a step of its own: SRC reads the new byte at its address and as before elsewhere, and nothing else
changes. SRC keeps its canonical form. -/
def Obligations.HostWriteChangesOneByte : Prop :=
  ∀ (s : State) (a : Addr) (b : Byte) (rest : List HostEvent), s.port = .write a b :: rest →
    ∃ t, step s = .next t ∧ (∀ x, t.srcByte x = if x = a then b else s.srcByte x) ∧ (Memory.wf s.src → Memory.wf t.src) ∧
      t.ch = s.ch ∧ t.rsps = s.rsps ∧ t.reads = s.reads ∧ t.port = rest

/-! ### Reset (spec/70_reset_and_hazards.md) -/

/-- The reset values and the writers of the channel fields (R36, R200, R201). After reset every field of every channel has its reset value
and every channel is exhausted, and reset does not change SRC: said of a machine right after reset with any NCH and of the reset
event in any state. A command word changes BASE, LEN or ORD of a channel only if it is a SCREATE on it, and IDX or POS only if it
is a SCREATE or an SADV on it. That the reset event keeps `rsps`, `reads` and `port` is the model's choice (entry 8). -/
def Obligations.ChannelFieldsResetValuesAndWriters : Prop :=
  (∀ (nch : Nat), (State.resetWith nch).nch = nch ∧ ∀ k ∈ (State.resetWith nch).ch,
    k.base = 0x000 ∧ k.len = 0x000 ∧ k.idx = 0x000 ∧ k.pos = .first ∧ k.ord = .highFirst ∧ k.isExhausted = true) ∧
  (∀ (s : State) (rest : List HostEvent), s.port = .reset :: rest →
    ∃ t, step s = .next t ∧ t.nch = s.nch ∧
      (∀ k ∈ t.ch, k.base = 0x000 ∧ k.len = 0x000 ∧ k.idx = 0x000 ∧ k.pos = .first ∧ k.ord = .highFirst ∧
        k.isExhausted = true) ∧
      t.src = s.src ∧ t.rsps = s.rsps ∧ t.reads = s.reads ∧ t.port = rest) ∧
  (∀ (s t : State) (w : Word) (rest : List HostEvent) (d : ChanIx) (k k' : Channel), s.port = .command w :: rest →
    step s = .next t → s.chan? d = some k → t.chan? d = some k' →
    (k'.base ≠ k.base ∨ k'.len ≠ k.len ∨ k'.ord ≠ k.ord → ∃ o base len, w = encode (.screate d o base len)) ∧
    (k'.idx ≠ k.idx ∨ k'.pos ≠ k.pos → w = encode (.sadv d) ∨ ∃ o base len, w = encode (.screate d o base len)))

/-- After a reset, every SADV before the first SCREATE on that channel gives END with no SRC read (R202): after a reset event in
any state, and from the machine right after reset. -/
def Obligations.UncreatedChannelsAnswerEnd : Prop :=
  (∀ (s : State) (c : ChanIx) (evs rest : List HostEvent), c.toNat < s.nch → (∀ e ∈ evs, e.NoCreate c) →
    ∃ t, runSteps (1 + evs.length) (s.withPort (.reset :: (evs ++ .command (encode (.sadv c)) :: rest))) = .next t ∧
      step t = .next { t with port := rest, rsps := t.rsps ++ [0x10000000] }) ∧
  (∀ (nch : Nat) (c : ChanIx) (evs rest : List HostEvent), c.toNat < nch → (∀ e ∈ evs, e.NoCreate c) →
    ∃ t, runSteps evs.length ((State.resetWith nch).withPort (evs ++ .command (encode (.sadv c)) :: rest)) = .next t ∧
      step t = .next { t with port := rest, rsps := t.rsps ++ [0x10000000] })

/-- The invariant holds right after reset for every legal NCH (R5), the model's own NCH = 2 among them (entry 1). -/
def Obligations.ResetHoldsTheInvariant : Prop :=
  (∀ (nch : Nat), 1 ≤ nch → nch ≤ 4 → (State.resetWith nch).Inv) ∧ State.reset.Inv

/-- The invariant is kept by every step, from every state that has it. -/
def Obligations.StepKeepsTheInvariant : Prop :=
  ∀ (s t : State), s.Inv → step s = .next t → t.Inv

/-- R29: every channel always satisfies IDX ≤ LEN, and POS = 1 implies IDX < LEN: along every run from reset, for every NCH and
whatever the host does; the reset values satisfy it, SCREATE establishes it, and every step preserves it. -/
def Obligations.EveryChannelAlwaysWellFormed : Prop :=
  (∀ (nch n : Nat) (evs : List HostEvent) (t : State), runSteps n ((State.resetWith nch).withPort evs) = .next t →
    ∀ k ∈ t.ch, k.idx ≤ k.len ∧ (k.pos = .second → k.idx < k.len)) ∧
  (∀ (s t : State), (∀ k ∈ s.ch, k.wf) → step s = .next t → ∀ k ∈ t.ch, k.wf) ∧
  (∀ (c : ChanIx) (o : Order) (base : Addr) (len : Count) (s t : State) (k : Channel), c.toNat < s.nch →
    exec (.screate c o base len) s = .next t → t.chan? c = some k → k.wf) ∧
  (∀ (c : ChanIx) (s t : State) (k k' : Channel), k.wf → s.chan? c = some k → exec (.sadv c) s = .next t →
    t.chan? c = some k' → (k'.idx ≠ k.idx → k.idx < k.len ∧ k.pos = .second) ∧ (k'.pos ≠ k.pos → k.idx < k.len))

/-! ### The value unit (spec/40_value.md) -/

/-- R100: NVAL. -/
def Obligations.NvalValidatesItsOperand : Prop :=
  (∀ (nch : Nat) (w : Word), w &&& 0xF0000000 = 0x10000000 → decode nch w = .command (.nval (w.extractLsb' 0 28))) ∧
  (∀ (v : Int28) (s : State),
    exec (.nval v) s = .next { s with rsps := s.rsps ++ [if v.toNat ≤ 15 then 0x0#4 ++ v else 0x2#4 ++ v] }) ∧
  (∀ (z : Int) (s : State), -(2 ^ 27) ≤ z → z < 0 →
    exec (.nval (BitVec.ofInt 28 z)) s = .next { s with rsps := s.rsps ++ [0x2#4 ++ BitVec.ofInt 28 z] })

/-- R101: NMASK, with its reading on integers a host holds. The spec marks the two's-complement reading of a negative integer as
from general knowledge (entry 15). -/
def Obligations.NmaskTakesTheLowFourBits : Prop :=
  (∀ (nch : Nat) (w : Word), w &&& 0xF0000000 = 0x20000000 → decode nch w = .command (.nmask (w.extractLsb' 0 28))) ∧
  (∀ (v : Int28) (s : State),
    exec (.nmask v) s = .next { s with rsps := s.rsps ++ [BitVec.ofNat 32 (v.toNat % 16)] }) ∧
  (∀ (u : Nat) (s : State),
    exec (.nmask (BitVec.ofNat 28 u)) s = .next { s with rsps := s.rsps ++ [BitVec.ofNat 32 (u % 16)] }) ∧
  (∀ (z : Int) (s : State),
    exec (.nmask (BitVec.ofInt 28 z)) s = .next { s with rsps := s.rsps ++ [BitVec.ofInt 32 (z % 16)] })

/-- R102: NTOI. -/
def Obligations.NtoiZeroExtends : Prop :=
  (∀ (nch : Nat) (w : Word), w &&& 0xFFFFFFF0 = 0x40000000 → decode nch w = .command (.ntoi (w.extractLsb' 0 4))) ∧
  (∀ (n : Nibble) (s : State), exec (.ntoi n) s = .next { s with rsps := s.rsps ++ [0#28 ++ n] }) ∧
  (∀ (n : Nibble) (width : Nat), 4 ≤ width → ((resultOf (0#28 ++ n)).setWidth width).toNat = n.toNat)

/-- R103: HEXP, the 22 hex digits and PARSE for every other code point. The spec marks the code points of R105 as from general
knowledge (entry 9). -/
def Obligations.HexpParsesExactlyTheHexDigits : Prop :=
  (∀ (nch : Nat) (w : Word), w &&& 0xFFE00000 = 0x30000000 → decode nch w = .command (.hexp (w.extractLsb' 0 21))) ∧
  (∀ (c : CodePoint) (s : State),
    exec (.hexp c) s = .next { s with rsps := s.rsps ++
      [if 0x30 ≤ c.toNat ∧ c.toNat ≤ 0x39 then BitVec.ofNat 32 (c.toNat - 0x30)
       else if 0x41 ≤ c.toNat ∧ c.toNat ≤ 0x46 then BitVec.ofNat 32 (c.toNat - 0x41 + 10)
       else if 0x61 ≤ c.toNat ∧ c.toNat ≤ 0x66 then BitVec.ofNat 32 (c.toNat - 0x61 + 10)
       else 0x3#4 ++ 0#7 ++ c] })

/-- R104: HEXR. The spec marks the code points of R105 as from general knowledge (entry 9). -/
def Obligations.HexrRendersLowerCase : Prop :=
  (∀ (nch : Nat) (w : Word), w &&& 0xFFFFFFF0 = 0x50000000 → decode nch w = .command (.hexr (w.extractLsb' 0 4))) ∧
  (∀ (n : Nibble) (s : State),
    exec (.hexr n) s = .next { s with rsps := s.rsps ++
      [if n.toNat ≤ 9 then BitVec.ofNat 32 (0x30 + n.toNat) else BitVec.ofNat 32 (0x61 + (n.toNat - 10))] })

/-- R106: the laws of the value unit, said of the responses: a RESULT is fed into the next command as the host would. -/
def Obligations.ValueUnitLaws : Prop :=
  (∀ (v : Int28) (s : State), v.toNat ≤ 15 → ∃ r, RespondsOnly (.nval v) s r ∧ statusOf r = 0 ∧
    ∀ u : State, RespondsOnly (.ntoi ((resultOf r).extractLsb' 0 4)) u (0x0#4 ++ v)) ∧
  (∀ (v : Int28) (s : State), 16 ≤ v.toNat → ∃ r, RespondsOnly (.nval v) s r ∧ statusOf r = 2) ∧
  (∀ (v : Int28) (s : State), ∃ r, RespondsOnly (.nmask v) s r ∧ statusOf r = 0 ∧ (resultOf r).toNat = v.toNat % 16) ∧
  (∀ (c : CodePoint) (s : State),
    (0x30 ≤ c.toNat ∧ c.toNat ≤ 0x39) ∨ (0x41 ≤ c.toNat ∧ c.toNat ≤ 0x46) ∨ (0x61 ≤ c.toNat ∧ c.toNat ≤ 0x66) →
    ∃ r, RespondsOnly (.hexp c) s r ∧ statusOf r = 0 ∧
      ∀ u : State, RespondsOnly (.hexr ((resultOf r).extractLsb' 0 4)) u
        (BitVec.ofNat 32 (if 0x41 ≤ c.toNat ∧ c.toNat ≤ 0x46 then c.toNat + 0x20 else c.toNat))) ∧
  (∀ (n : Nibble) (s : State), ∃ r, RespondsOnly (.hexr n) s r ∧
    ∀ u : State, RespondsOnly (.hexp ((resultOf r).extractLsb' 0 21)) u (0#28 ++ n)) ∧
  (∀ (c : CodePoint) (s : State),
    ¬ ((0x30 ≤ c.toNat ∧ c.toNat ≤ 0x39) ∨ (0x41 ≤ c.toNat ∧ c.toNat ≤ 0x46) ∨ (0x61 ≤ c.toNat ∧ c.toNat ≤ 0x66)) →
    ∃ r, RespondsOnly (.hexp c) s r ∧ statusOf r = 3)

/-! ### The codec (spec/41_codec.md) -/

/-- R122: SPLIT; the pair's lanes sit where the byte's own nibbles sit. -/
def Obligations.SplitGivesHighAndLow : Prop :=
  (∀ (nch : Nat) (w : Word), w &&& 0xFFFFFF00 = 0x60000000 → decode nch w = .command (.split (w.extractLsb' 0 8))) ∧
  (∀ (b : Byte) (s : State),
    exec (.split b) s = .next { s with rsps := s.rsps ++ [0#24 ++ (b.extractLsb' 4 4 ++ b.extractLsb' 0 4)] } ∧
    exec (.split b) s = .next { s with rsps := s.rsps ++ [0#24 ++ b] })

/-- R123: COMB. -/
def Obligations.CombPacksHighOverLow : Prop :=
  (∀ (nch : Nat) (w : Word), w &&& 0xFFFFFF00 = 0x70000000 →
    decode nch w = .command (.comb (w.extractLsb' 4 4) (w.extractLsb' 0 4))) ∧
  (∀ (h l : Nibble) (s : State),
    exec (.comb h l) s = .next { s with rsps := s.rsps ++ [BitVec.ofNat 32 (16 * h.toNat + l.toNat)] })

/-- R124: the round trips, of the datapath and at the command level. -/
def Obligations.CodecRoundTrips : Prop :=
  (∀ b : Byte, pack (nibHigh b) (nibLow b) = b) ∧
  (∀ h l : Nibble, nibHigh (pack h l) = h ∧ nibLow (pack h l) = l) ∧
  (∀ (b : Byte) (s : State), ∃ r, RespondsOnly (.split b) s r ∧
    ∀ u : State, RespondsOnly (.comb ((resultOf r).extractLsb' 4 4) ((resultOf r).extractLsb' 0 4)) u (0#24 ++ b)) ∧
  (∀ (h l : Nibble) (s : State), ∃ r, RespondsOnly (.comb h l) s r ∧
    ∀ u : State, ∃ q, RespondsOnly (.split ((resultOf r).extractLsb' 0 8)) u q ∧
      (resultOf q).extractLsb' 4 4 = h ∧ (resultOf q).extractLsb' 0 4 = l)

/-! ### The sequence unit (spec/42_sequence.md) -/

/-- R141: SCREATE writes all five fields of its channel, and nothing else, and gives OK, 0. -/
def Obligations.ScreateWritesItsChannel : Prop :=
  (∀ (nch : Nat) (w : Word), w &&& 0xF1000000 = 0x80000000 → (w.extractLsb' 26 2).toNat < nch →
    decode nch w = .command (.screate (w.extractLsb' 26 2) (if w.getLsbD 25 then .lowFirst else .highFirst)
      (w.extractLsb' 12 12) (w.extractLsb' 0 12))) ∧
  (∀ (s : State) (w : Word) (rest : List HostEvent), s.port = .command w :: rest → (w.extractLsb' 28 4).toNat = 8 →
    w.getLsbD 24 = true ∨ s.nch ≤ (w.extractLsb' 26 2).toNat →
    step s = .next { s with port := rest, rsps := s.rsps ++ [0xF0000000] }) ∧
  (∀ (c : ChanIx) (o : Order) (base : Addr) (len : Count) (s : State), c.toNat < s.nch →
    exec (.screate c o base len) s =
      .next { s with
        ch := s.ch.set c.toNat { base := base, len := len, idx := 0, pos := .first, ord := o }
        rsps := s.rsps ++ [0x00000000] })

/-- R142 and R143: SADV gives END and changes nothing on an exhausted channel; otherwise it reads the one byte at
(BASE + IDX) mod 4096, yields the nibble POS and ORD select, toggles POS, and moves IDX on after the second nibble. END
repeats on every later SADV until the next SCREATE on that channel, whatever else the host does. -/
def Obligations.SadvYieldsTheNextNibble : Prop :=
  (∀ (nch : Nat) (w : Word), w &&& 0xF3FFFFFF = 0x90000000 → (w.extractLsb' 26 2).toNat < nch →
    decode nch w = .command (.sadv (w.extractLsb' 26 2))) ∧
  (∀ (s : State) (w : Word) (rest : List HostEvent), s.port = .command w :: rest → (w.extractLsb' 28 4).toNat = 9 →
    w.extractLsb' 0 26 ≠ 0#26 ∨ s.nch ≤ (w.extractLsb' 26 2).toNat →
    step s = .next { s with port := rest, rsps := s.rsps ++ [0xF0000000] }) ∧
  (∀ (c : ChanIx) (s : State) (k : Channel), s.ch[c.toNat]? = some k → k.idx = k.len →
    exec (.sadv c) s = .next { s with rsps := s.rsps ++ [0x10000000] }) ∧
  (∀ (c : ChanIx) (s : State) (k : Channel), s.ch[c.toNat]? = some k → k.idx ≠ k.len →
    ∃ (a : Addr) (n : Nibble),
      exec (.sadv c) s =
        .next { s with
          ch := s.ch.set c.toNat { k with
            pos := if k.pos = .first then .second else .first
            idx := if k.pos = .first then k.idx else k.idx + 1 }
          rsps := s.rsps ++ [0#28 ++ n]
          reads := s.reads ++ [a] } ∧
      a.toNat = (k.base.toNat + k.idx.toNat) % 4096 ∧
      (k.ord = .highFirst → k.pos = .first → n = (s.srcByte a).extractLsb' 4 4) ∧
      (k.ord = .highFirst → k.pos = .second → n = (s.srcByte a).extractLsb' 0 4) ∧
      (k.ord = .lowFirst → k.pos = .first → n = (s.srcByte a).extractLsb' 0 4) ∧
      (k.ord = .lowFirst → k.pos = .second → n = (s.srcByte a).extractLsb' 4 4)) ∧
  (∀ (c : ChanIx) (s : State) (k : Channel) (evs rest : List HostEvent), s.ch[c.toNat]? = some k → k.idx = k.len →
    (∀ e ∈ evs, e.NoCreate c) →
    ∃ t, runSteps evs.length (s.withPort (evs ++ .command (encode (.sadv c)) :: rest)) = .next t ∧
      step t = .next { t with port := rest, rsps := t.rsps ++ [0x10000000] })

/-- The model's own answer where the decoder never leads (entry 7): executing SCREATE or SADV on a channel that does not exist
gives ILLEGAL and changes nothing. -/
def Obligations.AbsentChannelAnswersIllegal : Prop :=
  ∀ (c : ChanIx) (s : State), s.nch ≤ c.toNat →
    RespondsOnly (.sadv c) s 0xF0000000 ∧
    ∀ (o : Order) (base : Addr) (len : Count), RespondsOnly (.screate c o base len) s 0xF0000000

/-- R30 and R31: a channel has exactly `remaining` nibbles left. `n` SADVs in a row give `min n remaining` OK responses, then
END, and leave `remaining - n`; the channel is exhausted exactly when `remaining` is 0; right after SCREATE it is 2 × LEN. -/
def Obligations.RemainingCountsTheNibblesLeft : Prop :=
  (∀ (k : Channel), k.wf → (k.remaining = 0 ↔ k.idx = k.len) ∧ (k.idx = k.len → k.pos = .first)) ∧
  (∀ (c : ChanIx) (o : Order) (base : Addr) (len : Count) (s t : State), c.toNat < s.nch →
    exec (.screate c o base len) s = .next t → ∃ k, t.chan? c = some k ∧ k.remaining = 2 * len.toNat) ∧
  (∀ (c : ChanIx) (s : State) (k : Channel) (n : Nat) (rest : List HostEvent), s.chan? c = some k → k.wf →
    ∃ t k' oks, runSteps n (s.withPort (List.replicate n (.command (encode (.sadv c))) ++ rest)) = .next t ∧
      t.port = rest ∧ t.chan? c = some k' ∧ k'.remaining = k.remaining - n ∧
      oks.length = min n k.remaining ∧ (∀ r ∈ oks, statusOf r = 0) ∧
      t.rsps = s.rsps ++ oks ++ List.replicate (n - k.remaining) 0x10000000)

/-- R144: after SCREATE, whatever comes in between that is no SCREATE on that channel, no reset and no host write to the span
(commands on other channels, value-unit and codec commands, even ILLEGAL words), the next SADV on the channel gives nibble_k,
where k counts the SADVs on the channel so far, for k < 2 × len, and END after that. -/
def Obligations.InterleavedSequenceYieldsInOrder : Prop :=
  ∀ (s : State) (c : ChanIx) (o : Order) (base : Addr) (len : Count) (evs rest : List HostEvent),
    c.toNat < s.nch → (∀ e ∈ evs, e.KeepsSequence c base len) →
    ∃ t u, runSteps (1 + evs.length)
        (s.withPort (.command (encode (.screate c o base len)) :: (evs ++ .command (encode (.sadv c)) :: rest))) = .next t ∧
      step t = .next u ∧ u.port = rest ∧
      u.rsps = t.rsps ++ [s.sequenceResponse o base len (evs.countP (HostEvent.advances c))]

/-- R144 in one run: SCREATE and `n` SADVs give OK, 0, then the whole sequence of the span, nibble by nibble, then END for ever;
SRC and the other channels stay as they were. -/
def Obligations.WholeSequenceInOneRun : Prop :=
  ∀ (s : State) (c : ChanIx) (o : Order) (base : Addr) (len : Count) (n : Nat) (rest : List HostEvent), c.toNat < s.nch →
    ∃ t, runSteps (1 + n)
        (s.withPort (.command (encode (.screate c o base len)) ::
          (List.replicate n (.command (encode (.sadv c))) ++ rest))) = .next t ∧
      t.port = rest ∧ t.src = s.src ∧ t.ch = s.ch.set c.toNat (cursorAt o base len (min n (2 * len.toNat))) ∧
      t.rsps = s.rsps ++ [0x00000000] ++ (List.range n).map (s.sequenceResponse o base len)

/-- R145, the restart law: two SCREATEs with the same base, length and order, on any two channels of any two states of the block
(in the middle of whatever iteration) whose SRC agrees over the span, give the same responses to the same number of SADVs. -/
def Obligations.RestartYieldsTheSameSequence : Prop :=
  ∀ (s1 s2 : State) (c d : ChanIx) (o : Order) (base : Addr) (len : Count) (n : Nat),
    c.toNat < s1.nch → d.toNat < s2.nch → (∀ i < len.toNat, s1.spanByte base i = s2.spanByte base i) →
    ∃ t1 t2 rs,
      runSteps (1 + n) (s1.withPort (.command (encode (.screate c o base len)) ::
        List.replicate n (.command (encode (.sadv c))))) = .next t1 ∧
      runSteps (1 + n) (s2.withPort (.command (encode (.screate d o base len)) ::
        List.replicate n (.command (encode (.sadv d))))) = .next t2 ∧
      t1.rsps = s1.rsps ++ rs ∧ t2.rsps = s2.rsps ++ rs

/-! ### Independence and isolation (spec/10_state.md) -/

/-- R33: a command that names channel c reads and writes only ch[c] among the channels: every other channel stays as it was,
and two states of equal NCH that agree on ch[c] and on SRC give the same response, the same reads and the same new ch[c],
whatever their other channels hold. -/
def Obligations.CommandTouchesOnlyItsChannel : Prop :=
  ∀ (i : Instr) (c : ChanIx), i.channel? = some c →
    (∀ (s t : State), exec i s = .next t → ∀ d, d ≠ c → t.chan? d = s.chan? d) ∧
    (∀ (s1 s2 : State), s1.nch = s2.nch → s1.chan? c = s2.chan? c → (∀ a, s1.srcByte a = s2.srcByte a) →
      ∃ t1 t2 rsp as, exec i s1 = .next t1 ∧ exec i s2 = .next t2 ∧ t1.rsps = s1.rsps ++ [rsp] ∧ t2.rsps = s2.rsps ++ [rsp] ∧
        t1.reads = s1.reads ++ as ∧ t2.reads = s2.reads ++ as ∧ t1.chan? c = t2.chan? c)

/-- R185: commands for different channels may be interleaved in any order: the two orders leave the same channel file and the
same SRC, and each command gets the same response in both. -/
def Obligations.CommandsOnDifferentChannelsCommute : Prop :=
  ∀ (i j : Instr) (c d : ChanIx) (s : State), i.channel? = some c → j.channel? = some d → c ≠ d →
    ∃ (s1 t s2 u : State) (ri rj : Word),
      exec i s = .next s1 ∧ exec j s1 = .next t ∧ exec j s = .next s2 ∧ exec i s2 = .next u ∧
      s1.rsps = s.rsps ++ [ri] ∧ t.rsps = s.rsps ++ [ri, rj] ∧ s2.rsps = s.rsps ++ [rj] ∧ u.rsps = s.rsps ++ [rj, ri] ∧
      t.ch = u.ch ∧ t.src = u.src

/-- R34: the response of a value-unit or codec command is a function of the command word alone, and the command reads and writes
no channel and does not access SRC: said of the nine commands' seven without a channel and of their words (OP 1 to 7). -/
def Obligations.ValueAndCodecCommandsArePure : Prop :=
  (∀ i : Instr, i.channel? = none → ∃ rsp, ∀ s : State, RespondsOnly i s rsp) ∧
  (∀ w : Word, 1 ≤ (w.extractLsb' 28 4).toNat → (w.extractLsb' 28 4).toNat ≤ 7 →
    ∃ rsp, ∀ (s : State) (rest : List HostEvent), s.port = .command w :: rest →
      step s = .next { s with port := rest, rsps := s.rsps ++ [rsp] })

/-- R35 and R177: a command word whose status is not OK writes no channel field, performs no SRC read, and changes no state
but for its own response. -/
def Obligations.NonOkStatusChangesNothing : Prop :=
  ∀ (s t : State) (w rsp : Word) (rest : List HostEvent), s.port = .command w :: rest → step s = .next t →
    t.rsps = s.rsps ++ [rsp] → statusOf rsp ≠ 0 → t = { s with port := rest, rsps := s.rsps ++ [rsp] }

/-- R175 (with R171, R172 and R173): which commands give which status, on a block where the command is well formed; a word that
decodes to no command gives ILLEGAL. -/
def Obligations.StatusTable : Prop :=
  (∀ (i : Instr) (s : State), i.wellFormed s.nch = true →
    ∃ t rsp, exec i s = .next t ∧ t.rsps = s.rsps ++ [rsp] ∧
      (statusOf rsp = 0x1#4 ↔ ∃ c k, i = .sadv c ∧ s.chan? c = some k ∧ k.idx = k.len) ∧
      (statusOf rsp = 0x2#4 ↔ ∃ v, i = .nval v ∧ 16 ≤ v.toNat) ∧
      (statusOf rsp = 0x3#4 ↔ ∃ c, i = .hexp c ∧
        ¬ ((0x30 ≤ c.toNat ∧ c.toNat ≤ 0x39) ∨ (0x41 ≤ c.toNat ∧ c.toNat ≤ 0x46) ∨ (0x61 ≤ c.toNat ∧ c.toNat ≤ 0x66))) ∧
      (statusOf rsp = 0x0#4 ∨ statusOf rsp = 0x1#4 ∨ statusOf rsp = 0x2#4 ∨ statusOf rsp = 0x3#4) ∧
      (∀ v, i = .nval v → statusOf rsp = 0x2#4 → resultOf rsp = v) ∧
      (∀ c, i = .hexp c → statusOf rsp = 0x3#4 → resultOf rsp = 0#7 ++ c) ∧
      (statusOf rsp = 0x1#4 → resultOf rsp = 0)) ∧
  (∀ (s : State) (w : Word) (rest : List HostEvent), s.port = .command w :: rest → (∀ i, decode s.nch w ≠ .command i) →
    step s = .next { s with port := rest, rsps := s.rsps ++ [0xF0000000] })

/-- A nibble result occupies RESULT[3:0] and RESULT[27:4] = 0 (R61): every OK response of NVAL, NMASK, NTOI, HEXP and SADV is a
nibble in [0,15] (R9). -/
def Obligations.NibbleResultsAreInRange : Prop :=
  ∀ (i : Instr) (s t : State) (rsp : Word), exec i s = .next t → t.rsps = s.rsps ++ [rsp] → statusOf rsp = 0 →
    ((∃ v, i = .nval v) ∨ (∃ v, i = .nmask v) ∨ (∃ n, i = .ntoi n) ∨ (∃ c, i = .hexp c) ∨ (∃ c, i = .sadv c)) →
    (resultOf rsp).toNat ≤ 15

/-- R20, R23 and R32: what a step answers depends on nothing but the event, the channel file and what SRC reads as: two states
that agree on these give the same responses, the same reads and the same channel file, whatever was answered or read before. -/
def Obligations.NoHiddenState : Prop :=
  ∀ (e : HostEvent) (s1 s2 : State) (rest1 rest2 : List HostEvent), s1.port = e :: rest1 → s2.port = e :: rest2 →
    s1.ch = s2.ch → (∀ a, s1.srcByte a = s2.srcByte a) →
    ∃ t1 t2 rs as, step s1 = .next t1 ∧ step s2 = .next t2 ∧ t1.ch = t2.ch ∧ (∀ a, t1.srcByte a = t2.srcByte a) ∧
      t1.rsps = s1.rsps ++ rs ∧ t2.rsps = s2.rsps ++ rs ∧ t1.reads = s1.reads ++ as ∧ t2.reads = s2.reads ++ as

/-! ### SRC (spec/20_memory.md) -/

/-- R41: SADV is the block's only access to SRC. An SADV that yields a nibble performs exactly one read, of one byte; one that
returns END performs none; no command writes SRC. -/
def Obligations.OnlyYieldingSadvReadsOneByte : Prop :=
  ∀ (i : Instr) (s t : State), exec i s = .next t →
    t.src = s.src ∧
    ((∃ c k, i = .sadv c ∧ s.chan? c = some k ∧ k.idx ≠ k.len ∧
        t.reads = s.reads ++ [BitVec.ofNat 12 (k.base.toNat + k.idx.toNat)]) ∨
     (t.reads = s.reads ∧ ∀ c k, i = .sadv c → s.chan? c = some k → k.idx = k.len))

/-- R205, also inside a live span (R56): a host write that completes before an SADV is seen by it. After a write of `b` at `a`, and
whatever comes in between that does not write `a` again, an SADV that reads `a` yields the nibble of `b` that its channel's POS
and ORD select. Between the two SADVs of one byte, the first nibble is the old byte's and the second the new byte's. -/
def Obligations.HostWriteIsSeenByLaterSadv : Prop :=
  (∀ (s t : State) (a : Addr) (b : Byte) (evs rest : List HostEvent) (c : ChanIx) (k : Channel),
    (∀ e ∈ evs, ∀ x, e ≠ .write a x) →
    runSteps (1 + evs.length) (s.withPort (.write a b :: (evs ++ .command (encode (.sadv c)) :: rest))) = .next t →
    t.chan? c = some k → k.idx ≠ k.len → k.base + k.idx = a →
    ∃ u, step t = .next u ∧ u.rsps = t.rsps ++
      [if (k.pos = .first ∧ k.ord = .highFirst) ∨ (k.pos = .second ∧ k.ord = .lowFirst) then 0#28 ++ b.extractLsb' 4 4
       else 0#28 ++ b.extractLsb' 0 4]) ∧
  (∀ (s : State) (c : ChanIx) (k : Channel) (b : Byte) (rest : List HostEvent), s.chan? c = some k → k.idx ≠ k.len →
    k.pos = .first →
    ∃ t, runSteps 3 (s.withPort (.command (encode (.sadv c)) :: .write (k.base + k.idx) b ::
        .command (encode (.sadv c)) :: rest)) = .next t ∧ t.port = rest ∧
      t.rsps = s.rsps ++
        (if k.ord = .highFirst then
          [0#28 ++ (s.srcByte (k.base + k.idx)).extractLsb' 4 4, 0#28 ++ b.extractLsb' 0 4]
         else [0#28 ++ (s.srcByte (k.base + k.idx)).extractLsb' 0 4, 0#28 ++ b.extractLsb' 4 4]))

/-- R206: SCREATE reads no source byte, so a host may write the span's bytes after SCREATE and before the first SADV, and the SADVs
see the written bytes: they yield the sequence of SRC as it is after the writes. -/
def Obligations.HostWritesAfterCreateAreSeen : Prop :=
  ∀ (s : State) (c : ChanIx) (o : Order) (base : Addr) (len : Count) (ws : List (Addr × Byte)) (n : Nat)
    (rest : List HostEvent), c.toNat < s.nch →
    ∃ t u,
      runSteps (1 + ws.length) (s.withPort (.command (encode (.screate c o base len)) ::
        (ws.map (fun x => .write x.1 x.2) ++ List.replicate n (.command (encode (.sadv c))) ++ rest))) = .next t ∧
      t.reads = s.reads ∧ t.src = ws.foldl (fun m x => Memory.store m x.1.toNat x.2) s.src ∧
      runSteps n t = .next u ∧ u.port = rest ∧
      u.rsps = s.rsps ++ [0x00000000] ++ (List.range n).map (t.sequenceResponse o base len)

/-- A byte of SRC changes only by a host write to it: through every run without one, resets among its events, it reads the same
(R41, R48, R201). -/
def Obligations.SrcChangesOnlyByHostWrites : Prop :=
  ∀ (s : State) (evs rest : List HostEvent) (a : Addr), (∀ e ∈ evs, ∀ b, e ≠ .write a b) →
    ∃ t, runSteps evs.length (s.withPort (evs ++ rest)) = .next t ∧ t.port = rest ∧ t.srcByte a = s.srcByte a

/-! ### Frames -/

/-- The frame of NVAL, NMASK, HEXP, NTOI, HEXR, SPLIT and COMB, which have no destination in the state: every channel, every
byte of SRC, the port and the read record are unchanged. -/
def Obligations.FrameOfValueAndCodecCommands : Prop :=
  ∀ (i : Instr) (s t : State), i.channel? = none → exec i s = .next t →
    (∀ d, t.chan? d = s.chan? d) ∧ t.nch = s.nch ∧ (∀ a, t.srcByte a = s.srcByte a) ∧ t.src = s.src ∧ t.port = s.port ∧
      t.reads = s.reads

/-- The frame of SCREATE: every other channel, NCH, every byte of SRC, the port and the read record are unchanged. -/
def Obligations.FrameOfScreate : Prop :=
  ∀ (c : ChanIx) (o : Order) (base : Addr) (len : Count) (s t : State), exec (.screate c o base len) s = .next t →
    (∀ d, d ≠ c → t.chan? d = s.chan? d) ∧ t.nch = s.nch ∧ (∀ a, t.srcByte a = s.srcByte a) ∧ t.src = s.src ∧
      t.port = s.port ∧ t.reads = s.reads

/-- The frame of SADV: every other channel, the BASE, LEN and ORD of its own channel, NCH, every byte of SRC and the port are
unchanged. -/
def Obligations.FrameOfSadv : Prop :=
  ∀ (c : ChanIx) (s t : State), exec (.sadv c) s = .next t →
    (∀ d, d ≠ c → t.chan? d = s.chan? d) ∧
    (∀ k, s.chan? c = some k → ∃ k', t.chan? c = some k' ∧ k'.base = k.base ∧ k'.len = k.len ∧ k'.ord = k.ord) ∧
    t.nch = s.nch ∧ (∀ a, t.srcByte a = s.srcByte a) ∧ t.src = s.src ∧ t.port = s.port

/-! ### The assembler (R72, R73) -/

/-- R72: an operand in range for its field assembles to the command with that operand, and an operand out of range is an error,
never truncated. -/
def Obligations.AssemblerNeverTruncates : Prop :=
  (∀ n, asmInstr .NVAL [.num n] = if n < 2 ^ 28 then .ok (.nval (BitVec.ofNat 28 n)) else .error .outOfRange) ∧
  (∀ n, asmInstr .NMASK [.num n] = if n < 2 ^ 28 then .ok (.nmask (BitVec.ofNat 28 n)) else .error .outOfRange) ∧
  (∀ n, asmInstr .HEXP [.num n] = if n < 2 ^ 21 then .ok (.hexp (BitVec.ofNat 21 n)) else .error .outOfRange) ∧
  (∀ c : Char, asmInstr .HEXP [.chr c] = .ok (.hexp (BitVec.ofNat 21 c.toNat))) ∧
  (∀ n, asmInstr .NTOI [.num n] = if n < 16 then .ok (.ntoi (BitVec.ofNat 4 n)) else .error .outOfRange) ∧
  (∀ n, asmInstr .HEXR [.num n] = if n < 16 then .ok (.hexr (BitVec.ofNat 4 n)) else .error .outOfRange) ∧
  (∀ n, asmInstr .SPLIT [.num n] = if n < 256 then .ok (.split (BitVec.ofNat 8 n)) else .error .outOfRange) ∧
  (∀ h l, asmInstr .COMB [.num h, .num l] =
    if h < 16 ∧ l < 16 then .ok (.comb (BitVec.ofNat 4 h) (BitVec.ofNat 4 l)) else .error .outOfRange) ∧
  (∀ c o b l, asmInstr .SCREATE [.num c, .order o, .num b, .num l] =
    if c < 4 ∧ b < 4096 ∧ l < 4096 then .ok (.screate (BitVec.ofNat 2 c) o (BitVec.ofNat 12 b) (BitVec.ofNat 12 l))
    else .error .outOfRange) ∧
  (∀ n, asmInstr .SADV [.num n] = if n < 4 then .ok (.sadv (BitVec.ofNat 2 n)) else .error .outOfRange)

/-- R73: the three-operand SCREATE assembles as the form with hf, for all numbers. -/
def Obligations.ThreeOperandCreateIsHighFirst : Prop :=
  ∀ c base len : Nat, asmInstr .SCREATE [.num c, .num base, .num len] =
    asmInstr .SCREATE [.num c, .order .highFirst, .num base, .num len]

/-- Every word the assembler gives for a line is the word of a command, on a block with the four channels the field can name
(R69, R72). -/
def Obligations.AssembledWordsAreCommands : Prop :=
  ∀ (line : List Char) (w : Word), assembleLine line = .word w → ∃ i, decode 4 w = .command i ∧ encode i = w
end

