-- ==== Sys2Proof/Laws/Bits.lean ====
section
/-! SUPPORT. Bit fields as numbers, and masks as fields: what turns a goal about encodings into arithmetic. -/

namespace Sys2Proof

/-- A concatenation as a number. -/
theorem append_toNat {n m : Nat} (a : BitVec n) (b : BitVec m) : (a ++ b).toNat = a.toNat * 2 ^ m + b.toNat := by
  rw [BitVec.toNat_append, ← Nat.shiftLeft_add_eq_or_of_lt b.isLt, Nat.shiftLeft_eq]

/-- A field as a number. -/
theorem extract_toNat {n : Nat} (x : BitVec n) (s l : Nat) : (x.extractLsb' s l).toNat = x.toNat / 2 ^ s % 2 ^ l := by
  simp [Nat.shiftRight_eq_div_pow]

/-- One bit as a number. -/
theorem bit_toNat {n : Nat} (x : BitVec n) (i : Nat) : x.getLsbD i = decide (x.toNat / 2 ^ i % 2 = 1) := by
  rw [← BitVec.testBit_toNat, Nat.testBit_eq_decide_div_mod_eq]

/-- The high part of a concatenation. -/
theorem extract_append_high {n m : Nat} (a : BitVec n) (b : BitVec m) : (a ++ b).extractLsb' m n = a := by
  apply BitVec.eq_of_toNat_eq
  rw [extract_toNat, append_toNat, Nat.mul_comm, Nat.mul_add_div (by positivity), Nat.div_eq_of_lt b.isLt]
  simp [Nat.mod_eq_of_lt a.isLt]

/-- The low part of a concatenation. -/
theorem extract_append_low {n m : Nat} (a : BitVec n) (b : BitVec m) : (a ++ b).extractLsb' 0 m = b := by
  apply BitVec.eq_of_toNat_eq
  rw [extract_toNat, append_toNat, pow_zero, Nat.div_one, Nat.add_comm, Nat.add_mul_mod_self_right,
    Nat.mod_eq_of_lt b.isLt]

/-- A word is its two parts side by side. -/
theorem append_extract (n m : Nat) (w : BitVec (n + m)) : w.extractLsb' m n ++ w.extractLsb' 0 m = w := by
  ext i hi
  simp

/-- Concatenations are equal part by part. -/
theorem append_inj {n m : Nat} {a c : BitVec n} {b d : BitVec m} : a ++ b = c ++ d ↔ a = c ∧ b = d :=
  ⟨fun h => ⟨by rw [← extract_append_high a b, h, extract_append_high],
    by rw [← extract_append_low a b, h, extract_append_low]⟩, by rintro ⟨rfl, rfl⟩; rfl⟩

/-- A mask of the high bits, compared with a match word that is zero below, compares the high field. -/
theorem highMask_eq_iff (n m : Nat) (w : BitVec (n + m)) (v : BitVec n) :
    w &&& (BitVec.allOnes n ++ 0#m) = v ++ 0#m ↔ w.extractLsb' m n = v := by
  have h : w &&& (BitVec.allOnes n ++ 0#m) = w.extractLsb' m n ++ 0#m := by
    conv => lhs; rw [← append_extract n m w]
    rw [BitVec.and_append]
    simp
  simp [h, append_inj]

end Sys2Proof
end

