-- ==== Sys2Proof/Laws/Decode.lean ====
section
/-! SUPPORT. The decoder, said once: which row an opcode has, what each row's mask compares, and when a command is read. -/

namespace Sys2Proof

open Sys2Proof.Machine

/-! ### The row of an opcode (R65, R66) -/

/-- The rows by opcode number. -/
def rowOfOpcode (op : BitVec 4) : Option OpRow := opcodeTable.find? (fun r => fieldOP r.matchBits == op)

theorem findRow_eq_rowOfOpcode (w : Word) : findRow w = rowOfOpcode (fieldOP w) := rfl

/-- The opcodes without a row are 0x0 and 0xA to 0xF. -/
theorem rowOfOpcode_eq_none_iff : ∀ op : BitVec 4, rowOfOpcode op = none ↔ op.toNat = 0 ∨ 10 ≤ op.toNat := by decide

theorem findRow_eq_none_iff (w : Word) : findRow w = none ↔ ReservedOpcode w :=
  rowOfOpcode_eq_none_iff _

/-- The row found has the word's opcode in its match word. -/
theorem fieldOP_of_findRow {w : Word} {r : OpRow} (h : findRow w = some r) : fieldOP w = fieldOP r.matchBits := by
  have := List.find?_some h
  simpa using (beq_iff_eq.mp this).symm

/-- No two rows share an opcode, so at most one row matches a word (R69). -/
theorem opcodeTable_opcodes_distinct :
    opcodeTable.Pairwise (fun r q => fieldOP r.matchBits ≠ fieldOP q.matchBits) := by decide

/-! ### What each mask compares (R63, R70) -/

theorem mask_I (w : Word) (v : BitVec 4) : w &&& 0xF0000000#32 = v ++ 0#28 ↔ fieldOP w = v :=
  highMask_eq_iff 4 28 w v

theorem mask_C (w : Word) : w &&& 0xFFE00000#32 = 0x30000000#32 ↔ fieldOP w = 3#4 ∧ w.extractLsb' 21 7 = 0#7 := by
  have h := highMask_eq_iff 11 21 w 0x180#11
  have e : 0x180#11 ++ 0#21 = 0x30000000#32 := by decide
  have m : BitVec.allOnes 11 ++ 0#21 = 0xFFE00000#32 := by decide
  rw [e, m] at h
  rw [h]
  simp only [fieldOP, ← BitVec.toNat_inj, extract_toNat, BitVec.toNat_ofNat]
  omega

theorem mask_N (w : Word) (v : BitVec 4) :
    w &&& 0xFFFFFFF0#32 = v ++ 0#28 ↔ fieldOP w = v ∧ w.extractLsb' 4 24 = 0#24 := by
  have h := highMask_eq_iff 28 4 w (v ++ 0#24)
  have e : (v ++ 0#24 ++ 0#4 : Word) = v ++ 0#28 := by
    apply BitVec.eq_of_toNat_eq
    simp only [append_toNat, BitVec.toNat_ofNat]
    omega
  have m : BitVec.allOnes 28 ++ 0#4 = 0xFFFFFFF0#32 := by decide
  rw [e, m] at h
  rw [h]
  have := v.isLt
  simp only [fieldOP, ← BitVec.toNat_inj, extract_toNat, append_toNat, BitVec.toNat_ofNat]
  omega

theorem mask_B (w : Word) (v : BitVec 4) :
    w &&& 0xFFFFFF00#32 = v ++ 0#28 ↔ fieldOP w = v ∧ w.extractLsb' 8 20 = 0#20 := by
  have h := highMask_eq_iff 24 8 w (v ++ 0#20)
  have e : (v ++ 0#20 ++ 0#8 : Word) = v ++ 0#28 := by
    apply BitVec.eq_of_toNat_eq
    simp only [append_toNat, BitVec.toNat_ofNat]
    omega
  have m : BitVec.allOnes 24 ++ 0#8 = 0xFFFFFF00#32 := by decide
  rw [e, m] at h
  rw [h]
  have := v.isLt
  simp only [fieldOP, ← BitVec.toNat_inj, extract_toNat, append_toNat, BitVec.toNat_ofNat]
  omega

theorem mask_S (w : Word) : w &&& 0xF1000000#32 = 0x80000000#32 ↔ fieldOP w = 8#4 ∧ w.getLsbD 24 = false := by
  have hm : 0xF#4 ++ 0#3 ++ 1#1 ++ 0#24 = 0xF1000000#32 := by decide
  have he : 0x8#4 ++ 0#3 ++ 0#1 ++ 0#24 = 0x80000000#32 := by decide
  have hf : ∀ x : BitVec 4, x &&& 0xF#4 = x := by decide
  have ho : ∀ x : BitVec 1, x &&& 1#1 = x := by decide
  have key : ∀ (a : BitVec 4) (b : BitVec 3) (c : BitVec 1) (d : BitVec 24),
      (a ++ b ++ c ++ d) &&& (0xF#4 ++ 0#3 ++ 1#1 ++ 0#24) = 0x8#4 ++ 0#3 ++ 0#1 ++ 0#24 ↔ a = 8#4 ∧ c = 0#1 := by
    intro a b c d
    rw [BitVec.and_append, BitVec.and_append, BitVec.and_append, hf, ho, BitVec.and_zero, BitVec.and_zero]
    simp only [append_inj, and_true]
  have hw : w.extractLsb' 28 4 ++ w.extractLsb' 25 3 ++ w.extractLsb' 24 1 ++ w.extractLsb' 0 24 = w := by
    apply BitVec.eq_of_toNat_eq
    simp only [append_toNat, extract_toNat]
    omega
  have h := key (w.extractLsb' 28 4) (w.extractLsb' 25 3) (w.extractLsb' 24 1) (w.extractLsb' 0 24)
  rw [hw, hm, he] at h
  refine h.trans (and_congr Iff.rfl ?_)
  rw [bit_toNat, ← BitVec.toNat_inj, extract_toNat]
  simp only [BitVec.toNat_ofNat, decide_eq_false_iff_not]
  omega

theorem mask_A (w : Word) : w &&& 0xF3FFFFFF#32 = 0x90000000#32 ↔ fieldOP w = 9#4 ∧ w.extractLsb' 0 26 = 0#26 := by
  have hm : 0xF#4 ++ 0#2 ++ BitVec.allOnes 26 = 0xF3FFFFFF#32 := by decide
  have he : 0x9#4 ++ 0#2 ++ 0#26 = 0x90000000#32 := by decide
  have hf : ∀ x : BitVec 4, x &&& 0xF#4 = x := by decide
  have key : ∀ (a : BitVec 4) (b : BitVec 2) (c : BitVec 26),
      (a ++ b ++ c) &&& (0xF#4 ++ 0#2 ++ BitVec.allOnes 26) = 0x9#4 ++ 0#2 ++ 0#26 ↔ a = 9#4 ∧ c = 0#26 := by
    intro a b c
    rw [BitVec.and_append, BitVec.and_append, hf, BitVec.and_zero, BitVec.and_allOnes]
    simp only [append_inj, and_true]
  have hw : w.extractLsb' 28 4 ++ w.extractLsb' 26 2 ++ w.extractLsb' 0 26 = w := by
    apply BitVec.eq_of_toNat_eq
    simp only [append_toNat, extract_toNat]
    omega
  have h := key (w.extractLsb' 28 4) (w.extractLsb' 26 2) (w.extractLsb' 0 26)
  rw [hw, hm, he] at h
  exact h

/-! ### When a command is read (R69) -/

/-- The inversion of the decoder: a command comes from the word's row, under its mask, from its fields, on a channel that
exists if the format carries one. -/
theorem decode_command {nch : Nat} {w : Word} {i : Instr} (h : decode nch w = .command i) :
    ∃ r ∈ opcodeTable, findRow w = some r ∧ w &&& r.maskBits = r.matchBits ∧
      (r.format.hasChannel = true → (fieldCH2 w).toNat < nch) ∧ i = r.mnemonic.read w := by
  simp only [decode] at h
  split at h
  · cases h
  case h_2 r hr =>
    split at h
    · cases h
    case isFalse hm =>
      split at h
      · cases h
      case isFalse hc =>
        cases h
        exact ⟨r, List.mem_of_find?_eq_some hr, hr, not_not.mp hm, fun hf => by simp [hf] at hc; exact hc, rfl⟩

/-- What the decoder does with a word whose row is known. -/
theorem decode_of_row {nch : Nat} {w : Word} {r : OpRow} (h : findRow w = some r) :
    decode nch w =
      if w &&& r.maskBits ≠ r.matchBits then .illegal .reservedBit
      else if r.format.hasChannel = true ∧ nch ≤ (fieldCH2 w).toNat then .illegal .noSuchChannel
      else .command (r.mnemonic.read w) := by
  simp [decode, h]

/-- A word without a row. -/
theorem decode_of_no_row {nch : Nat} {w : Word} (h : findRow w = none) :
    decode nch w = .illegal .reservedOpcode := by
  simp [decode, h]

/-! ### Decoding by opcode: what each opcode's words mean -/

theorem findRow_of_opcode {w : Word} {op : BitVec 4} {row : OpRow} (hr : rowOfOpcode op = some row) (h : fieldOP w = op) :
    findRow w = some row := by
  rw [findRow_eq_rowOfOpcode, h, hr]

theorem row_nval : rowOfOpcode 1#4 = some ⟨.NVAL, .I, 0x10000000, 0xF0000000⟩ := by decide
theorem row_nmask : rowOfOpcode 2#4 = some ⟨.NMASK, .I, 0x20000000, 0xF0000000⟩ := by decide
theorem row_hexp : rowOfOpcode 3#4 = some ⟨.HEXP, .C, 0x30000000, 0xFFE00000⟩ := by decide
theorem row_ntoi : rowOfOpcode 4#4 = some ⟨.NTOI, .N, 0x40000000, 0xFFFFFFF0⟩ := by decide
theorem row_hexr : rowOfOpcode 5#4 = some ⟨.HEXR, .N, 0x50000000, 0xFFFFFFF0⟩ := by decide
theorem row_split : rowOfOpcode 6#4 = some ⟨.SPLIT, .B, 0x60000000, 0xFFFFFF00⟩ := by decide
theorem row_comb : rowOfOpcode 7#4 = some ⟨.COMB, .P, 0x70000000, 0xFFFFFF00⟩ := by decide
theorem row_screate : rowOfOpcode 8#4 = some ⟨.SCREATE, .S, 0x80000000, 0xF1000000⟩ := by decide
theorem row_sadv : rowOfOpcode 9#4 = some ⟨.SADV, .A, 0x90000000, 0xF3FFFFFF⟩ := by decide

theorem decode_nval (nch : Nat) {w : Word} (h : fieldOP w = 1#4) :
    decode nch w = .command (.nval (fieldV28 w)) := by
  rw [decode_of_row (findRow_of_opcode row_nval h)]
  simp [(show w &&& 0xF0000000#32 = 0x10000000#32 ↔ _ from mask_I w 1#4), h, Format.hasChannel, Mnemonic.read]

theorem decode_nmask (nch : Nat) {w : Word} (h : fieldOP w = 2#4) :
    decode nch w = .command (.nmask (fieldV28 w)) := by
  rw [decode_of_row (findRow_of_opcode row_nmask h)]
  simp [(show w &&& 0xF0000000#32 = 0x20000000#32 ↔ _ from mask_I w 2#4), h, Format.hasChannel, Mnemonic.read]

theorem decode_hexp (nch : Nat) {w : Word} (h : fieldOP w = 3#4) :
    decode nch w = if w.extractLsb' 21 7 = 0#7 then .command (.hexp (fieldCP21 w)) else .illegal .reservedBit := by
  rw [decode_of_row (findRow_of_opcode row_hexp h)]
  simp [mask_C, h, Format.hasChannel, Mnemonic.read]

theorem decode_ntoi (nch : Nat) {w : Word} (h : fieldOP w = 4#4) :
    decode nch w = if w.extractLsb' 4 24 = 0#24 then .command (.ntoi (fieldN4 w)) else .illegal .reservedBit := by
  rw [decode_of_row (findRow_of_opcode row_ntoi h)]
  simp [(show w &&& 0xFFFFFFF0#32 = 0x40000000#32 ↔ _ from mask_N w 4#4), h, Format.hasChannel, Mnemonic.read]

theorem decode_hexr (nch : Nat) {w : Word} (h : fieldOP w = 5#4) :
    decode nch w = if w.extractLsb' 4 24 = 0#24 then .command (.hexr (fieldN4 w)) else .illegal .reservedBit := by
  rw [decode_of_row (findRow_of_opcode row_hexr h)]
  simp [(show w &&& 0xFFFFFFF0#32 = 0x50000000#32 ↔ _ from mask_N w 5#4), h, Format.hasChannel, Mnemonic.read]

theorem decode_split (nch : Nat) {w : Word} (h : fieldOP w = 6#4) :
    decode nch w = if w.extractLsb' 8 20 = 0#20 then .command (.split (fieldB8 w)) else .illegal .reservedBit := by
  rw [decode_of_row (findRow_of_opcode row_split h)]
  simp [(show w &&& 0xFFFFFF00#32 = 0x60000000#32 ↔ _ from mask_B w 6#4), h, Format.hasChannel, Mnemonic.read]

theorem decode_comb (nch : Nat) {w : Word} (h : fieldOP w = 7#4) :
    decode nch w = if w.extractLsb' 8 20 = 0#20 then .command (.comb (fieldH4 w) (fieldL4 w)) else .illegal .reservedBit := by
  rw [decode_of_row (findRow_of_opcode row_comb h)]
  simp [(show w &&& 0xFFFFFF00#32 = 0x70000000#32 ↔ _ from mask_B w 7#4), h, Format.hasChannel, Mnemonic.read]

theorem decode_screate (nch : Nat) {w : Word} (h : fieldOP w = 8#4) :
    decode nch w = if w.getLsbD 24 = true then .illegal .reservedBit
      else if nch ≤ (fieldCH2 w).toNat then .illegal .noSuchChannel
      else .command (.screate (fieldCH2 w) (fieldORD w) (fieldBASE12 w) (fieldLEN12 w)) := by
  rw [decode_of_row (findRow_of_opcode row_screate h)]
  simp [mask_S, h, Format.hasChannel, Mnemonic.read]

theorem decode_sadv (nch : Nat) {w : Word} (h : fieldOP w = 9#4) :
    decode nch w = if w.extractLsb' 0 26 ≠ 0#26 then .illegal .reservedBit
      else if nch ≤ (fieldCH2 w).toNat then .illegal .noSuchChannel
      else .command (.sadv (fieldCH2 w)) := by
  rw [decode_of_row (findRow_of_opcode row_sadv h)]
  simp [mask_A, h, Format.hasChannel, Mnemonic.read]

/-- Every opcode is reserved or one of the nine. -/
theorem opcode_cases : ∀ op : BitVec 4, (op.toNat = 0 ∨ 10 ≤ op.toNat) ∨ op = 1#4 ∨ op = 2#4 ∨ op = 3#4 ∨ op = 4#4 ∨
    op = 5#4 ∨ op = 6#4 ∨ op = 7#4 ∨ op = 8#4 ∨ op = 9#4 := by decide

/-! ### The encoder as numbers (R63, R65) -/

theorem encode_toNat (i : Instr) : (encode i).toNat =
    match i with
    | .nval v => 1 * 2 ^ 28 + v.toNat
    | .nmask v => 2 * 2 ^ 28 + v.toNat
    | .hexp c => 3 * 2 ^ 28 + c.toNat
    | .ntoi n => 4 * 2 ^ 28 + n.toNat
    | .hexr n => 5 * 2 ^ 28 + n.toNat
    | .split b => 6 * 2 ^ 28 + b.toNat
    | .comb h l => 7 * 2 ^ 28 + h.toNat * 16 + l.toNat
    | .screate c o base len =>
      8 * 2 ^ 28 + c.toNat * 2 ^ 26 + o.toBit.toNat * 2 ^ 25 + base.toNat * 2 ^ 12 + len.toNat
    | .sadv c => 9 * 2 ^ 28 + c.toNat * 2 ^ 26 := by
  cases i <;> simp only [encode, append_toNat, BitVec.toNat_ofNat] <;> omega

/-! ### The ORD bit -/

@[simp] theorem ofBit_toBit (o : Order) : Order.ofBit ((o.toBit).getLsbD 0) = o := by cases o <;> rfl

end Sys2Proof
end

