-- ==== Sys2Proof/Laws/State.lean ====
section
/-! SUPPORT. One lemma per field per update of the state, so that no proof unfolds a record update. -/

namespace Sys2Proof.Machine

section respond
variable (s : State) (st : Status) (r : BitVec 28)
@[simp] theorem respond_ch : (s.respond st r).ch = s.ch := rfl
@[simp] theorem respond_src : (s.respond st r).src = s.src := rfl
@[simp] theorem respond_port : (s.respond st r).port = s.port := rfl
@[simp] theorem respond_rsps : (s.respond st r).rsps = s.rsps ++ [responseWord st r] := rfl
@[simp] theorem respond_reads : (s.respond st r).reads = s.reads := rfl
@[simp] theorem raise_eq_respond : s.raise st r = s.respond st r := rfl
@[simp] theorem illegal_eq_respond : s.illegal = s.respond .illegal 0 := rfl
end respond

section setChan
variable (s : State) (c : ChanIx) (k : Channel)
@[simp] theorem setChan_ch : (s.setChan c k).ch = s.ch.set c.toNat k := rfl
@[simp] theorem setChan_src : (s.setChan c k).src = s.src := rfl
@[simp] theorem setChan_port : (s.setChan c k).port = s.port := rfl
@[simp] theorem setChan_rsps : (s.setChan c k).rsps = s.rsps := rfl
@[simp] theorem setChan_reads : (s.setChan c k).reads = s.reads := rfl
end setChan

section srcRead
variable (s : State) (a : Addr)
@[simp] theorem srcRead_byte : (s.srcRead a).1 = s.srcByte a := rfl
@[simp] theorem srcRead_ch : (s.srcRead a).2.ch = s.ch := rfl
@[simp] theorem srcRead_src : (s.srcRead a).2.src = s.src := rfl
@[simp] theorem srcRead_port : (s.srcRead a).2.port = s.port := rfl
@[simp] theorem srcRead_rsps : (s.srcRead a).2.rsps = s.rsps := rfl
@[simp] theorem srcRead_reads : (s.srcRead a).2.reads = s.reads ++ [a] := rfl
end srcRead

section hostWrite
variable (s : State) (a : Addr) (b : Byte)
@[simp] theorem hostWrite_ch : (s.hostWrite a b).ch = s.ch := rfl
@[simp] theorem hostWrite_src : (s.hostWrite a b).src = Memory.store s.src a.toNat b := rfl
@[simp] theorem hostWrite_port : (s.hostWrite a b).port = s.port := rfl
@[simp] theorem hostWrite_rsps : (s.hostWrite a b).rsps = s.rsps := rfl
@[simp] theorem hostWrite_reads : (s.hostWrite a b).reads = s.reads := rfl
end hostWrite

section resetBlock
variable (s : State)
@[simp] theorem resetBlock_ch : s.resetBlock.ch = List.replicate s.nch Channel.reset := rfl
@[simp] theorem resetBlock_src : s.resetBlock.src = s.src := rfl
@[simp] theorem resetBlock_port : s.resetBlock.port = s.port := rfl
@[simp] theorem resetBlock_rsps : s.resetBlock.rsps = s.rsps := rfl
@[simp] theorem resetBlock_reads : s.resetBlock.reads = s.reads := rfl
end resetBlock

section withPort
variable (s : State) (evs : List HostEvent)
@[simp] theorem withPort_ch : (s.withPort evs).ch = s.ch := rfl
@[simp] theorem withPort_src : (s.withPort evs).src = s.src := rfl
@[simp] theorem withPort_port : (s.withPort evs).port = evs := rfl
@[simp] theorem withPort_rsps : (s.withPort evs).rsps = s.rsps := rfl
@[simp] theorem withPort_reads : (s.withPort evs).reads = s.reads := rfl
@[simp] theorem withPort_withPort (evs' : List HostEvent) : (s.withPort evs).withPort evs' = s.withPort evs' := rfl
@[simp] theorem withPort_self : s.withPort s.port = s := rfl
end withPort

/-! ### What a state reads: each reader depends on one field alone -/

theorem nch_congr {s t : State} (h : t.ch = s.ch) : t.nch = s.nch := by simp [State.nch, h]
theorem chan_congr {s t : State} (h : t.ch = s.ch) (c : ChanIx) : t.chan? c = s.chan? c := by simp [State.chan?, h]
theorem srcByte_congr {s t : State} (h : t.src = s.src) (a : Addr) : t.srcByte a = s.srcByte a := by
  simp [State.srcByte, h]

@[simp] theorem respond_nch (s : State) (st : Status) (r : BitVec 28) : (s.respond st r).nch = s.nch := rfl
@[simp] theorem respond_chan (s : State) (st : Status) (r : BitVec 28) (c : ChanIx) :
    (s.respond st r).chan? c = s.chan? c := rfl
@[simp] theorem respond_srcByte (s : State) (st : Status) (r : BitVec 28) (a : Addr) :
    (s.respond st r).srcByte a = s.srcByte a := rfl
@[simp] theorem withPort_nch (s : State) (evs : List HostEvent) : (s.withPort evs).nch = s.nch := rfl
@[simp] theorem withPort_chan (s : State) (evs : List HostEvent) (c : ChanIx) :
    (s.withPort evs).chan? c = s.chan? c := rfl
@[simp] theorem withPort_srcByte (s : State) (evs : List HostEvent) (a : Addr) :
    (s.withPort evs).srcByte a = s.srcByte a := rfl
@[simp] theorem hostWrite_nch (s : State) (a : Addr) (b : Byte) : (s.hostWrite a b).nch = s.nch := rfl
@[simp] theorem hostWrite_chan (s : State) (a : Addr) (b : Byte) (c : ChanIx) :
    (s.hostWrite a b).chan? c = s.chan? c := rfl
@[simp] theorem setChan_nch (s : State) (c : ChanIx) (k : Channel) : (s.setChan c k).nch = s.nch := by
  simp [State.nch]
@[simp] theorem setChan_srcByte (s : State) (c : ChanIx) (k : Channel) (a : Addr) :
    (s.setChan c k).srcByte a = s.srcByte a := rfl
@[simp] theorem resetBlock_nch (s : State) : s.resetBlock.nch = s.nch := by simp [State.nch]
@[simp] theorem resetBlock_srcByte (s : State) (a : Addr) : s.resetBlock.srcByte a = s.srcByte a := rfl
@[simp] theorem resetWith_nch (n : Nat) : (State.resetWith n).nch = n := by simp [State.nch, State.resetWith]

/-! ### Channels after a write of one -/

theorem setChan_chan_self {s : State} {c : ChanIx} (h : c.toNat < s.nch) (k : Channel) :
    (s.setChan c k).chan? c = some k := by
  simp only [State.nch] at h
  simp [State.chan?, h]

theorem setChan_chan_other (s : State) {c d : ChanIx} (h : d ≠ c) (k : Channel) :
    (s.setChan c k).chan? d = s.chan? d := by
  have : c.toNat ≠ d.toNat := fun e => h (BitVec.eq_of_toNat_eq e.symm)
  simp [State.chan?, this]

theorem chan_isSome {s : State} {c : ChanIx} (h : c.toNat < s.nch) : ∃ k, s.chan? c = some k :=
  ⟨s.ch[c.toNat]'h, List.getElem?_eq_getElem h⟩

theorem chan_some_lt {s : State} {c : ChanIx} {k : Channel} (h : s.chan? c = some k) : c.toNat < s.nch := by
  simp only [State.chan?] at h
  exact (List.getElem?_eq_some_iff.mp h).1

theorem chan_none {s : State} {c : ChanIx} (h : s.nch ≤ c.toNat) : s.chan? c = none := by
  simpa [State.chan?, State.nch] using h

end Sys2Proof.Machine
end

