-- ==== Sys2Proof/Laws/Memory.lean ====
section
/-! SUPPORT. The laws of SRC: read after write, every other address alone, and the canonical form kept. -/

namespace Sys2Proof.Machine

/-- Read after write, at the written address and at every other. -/
theorem lookup_store (m : List Host.Cell) (a x : Nat) (b : Byte) :
    Memory.lookup (Memory.store m a b) x = if x = a then some b else Memory.lookup m x := by
  induction m with
  | nil => simp [Memory.store, Memory.lookup, eq_comm]
  | cons c m ih =>
    obtain ⟨k, v⟩ := c
    simp only [Memory.store]
    split
    · simp [Memory.lookup, eq_comm]
    · split
      · subst_vars
        by_cases h : x = k
        · simp [Memory.lookup, h]
        · simp [Memory.lookup, h, Ne.symm h]
      · simp only [Memory.lookup, ih]
        by_cases h : k = x
        · subst h
          have : k ≠ a := fun e => by omega
          simp [this]
        · simp [h]

/-- What a store can put in the list: the written cell or an old one. -/
theorem mem_store {m : List Host.Cell} {a : Nat} {b : Byte} {c : Host.Cell} (h : c ∈ Memory.store m a b) :
    c = (a, b) ∨ c ∈ m := by
  induction m with
  | nil => simpa [Memory.store] using h
  | cons d m ih =>
    obtain ⟨k, v⟩ := d
    simp only [Memory.store] at h
    split at h
    · simpa using h
    · split at h
      · rcases List.mem_cons.mp h with h | h
        · exact .inl h
        · exact .inr (List.mem_cons_of_mem _ h)
      · rcases List.mem_cons.mp h with h | h
        · exact .inr (by simp [h])
        · exact (ih h).imp id (List.mem_cons_of_mem _)

/-- A store keeps the addresses strictly rising. -/
theorem store_pairwise {m : List Host.Cell} (a : Nat) (b : Byte) (h : m.Pairwise (fun x y => x.1 < y.1)) :
    (Memory.store m a b).Pairwise (fun x y => x.1 < y.1) := by
  induction m with
  | nil => simp [Memory.store]
  | cons d m ih =>
    obtain ⟨k, v⟩ := d
    obtain ⟨hk, hm⟩ := List.pairwise_cons.mp h
    simp only [Memory.store]
    split
    case isTrue hlt =>
      refine List.pairwise_cons.mpr ⟨fun y hy => ?_, h⟩
      rcases List.mem_cons.mp hy with rfl | hy
      · exact hlt
      · exact Nat.lt_trans hlt (hk y hy)
    case isFalse hge =>
      split
      case isTrue heq => exact List.pairwise_cons.mpr ⟨fun y hy => heq ▸ hk y hy, hm⟩
      case isFalse hne =>
        refine List.pairwise_cons.mpr ⟨fun y hy => ?_, ih hm⟩
        rcases mem_store hy with rfl | hy
        · show k < a; omega
        · exact hk y hy

/-- A store keeps the canonical form. -/
theorem store_wf {m : List Host.Cell} (a : Addr) (b : Byte) (h : Memory.wf m) : Memory.wf (Memory.store m a.toNat b) := by
  refine ⟨store_pairwise _ _ h.1, fun x hx => ?_⟩
  rcases mem_store hx with rfl | hx
  · exact a.isLt
  · exact h.2 x hx

/-- A host write, byte by byte. -/
theorem hostWrite_srcByte (s : State) (a x : Addr) (b : Byte) :
    (s.hostWrite a b).srcByte x = if x = a then b else s.srcByte x := by
  simp only [State.srcByte, hostWrite_src, lookup_store, ← BitVec.toNat_inj]
  split <;> rfl

end Sys2Proof.Machine
end

