-- ==== Sys2Proof/Laws/Exec.lean ====
section
/-! SUPPORT. What each command's meaning does, said once: an equation per case, then one inversion lemma for all of them. -/

namespace Sys2Proof.Machine

/-! ### One equation per meaning -/

theorem exec_nval_inRange {v : Int28} (h : outOfRange v = false) (s : State) :
    exec (.nval v) s = .next (s.respond .ok (zext28 (low4 v))) := by
  simp [exec, execNval, nvalStatus, h]

theorem exec_nval_outOfRange {v : Int28} (h : outOfRange v = true) (s : State) :
    exec (.nval v) s = .next (s.respond .range v) := by
  simp [exec, execNval, nvalStatus, h]

theorem exec_nmask (v : Int28) (s : State) : exec (.nmask v) s = .next (s.respond .ok (zext28 (low4 v))) := rfl

theorem exec_ntoi (n : Nibble) (s : State) : exec (.ntoi n) s = .next (s.respond .ok (zext28 n)) := rfl

theorem exec_hexp_digit {c : CodePoint} {n : Nibble} (h : hexNibble c = some n) (s : State) :
    exec (.hexp c) s = .next (s.respond .ok (zext28 n)) := by
  simp [exec, execHexp, h]

theorem exec_hexp_other {c : CodePoint} (h : hexNibble c = none) (s : State) :
    exec (.hexp c) s = .next (s.respond .parse (zext28 c)) := by
  simp [exec, execHexp, h]

theorem exec_hexr (n : Nibble) (s : State) : exec (.hexr n) s = .next (s.respond .ok (hexCode n)) := rfl

theorem exec_split (b : Byte) (s : State) :
    exec (.split b) s = .next (s.respond .ok (zext28 (pairBits (nibHigh b) (nibLow b)))) := rfl

theorem exec_comb (h l : Nibble) (s : State) : exec (.comb h l) s = .next (s.respond .ok (zext28 (pack h l))) := rfl

theorem exec_screate_present {s : State} {c : ChanIx} (h : c.toNat < s.nch) (o : Order) (base : Addr) (len : Count) :
    exec (.screate c o base len) s = .next ((s.setChan c (Channel.create o base len)).respond .ok 0) := by
  obtain ⟨k, hk⟩ := chan_isSome h
  simp [exec, execScreate, hk]

theorem exec_screate_absent {s : State} {c : ChanIx} (h : s.nch ≤ c.toNat) (o : Order) (base : Addr) (len : Count) :
    exec (.screate c o base len) s = .next (s.respond .illegal 0) := by
  simp [exec, execScreate, chan_none h]

theorem exec_sadv_exhausted {s : State} {c : ChanIx} {k : Channel} (h : s.chan? c = some k) (he : k.idx = k.len) :
    exec (.sadv c) s = .next (s.respond .exhausted 0) := by
  simp [exec, execSadv, h, sadvStatus, Channel.isExhausted, he]

theorem exec_sadv_yields {s : State} {c : ChanIx} {k : Channel} (h : s.chan? c = some k) (he : k.idx ≠ k.len) :
    exec (.sadv c) s = .next (yieldNibble c k s) := by
  simp [exec, execSadv, h, sadvStatus, Channel.isExhausted, he]

theorem exec_sadv_absent {s : State} {c : ChanIx} (h : s.nch ≤ c.toNat) :
    exec (.sadv c) s = .next (s.respond .illegal 0) := by
  simp [exec, execSadv, chan_none h]

/-! ### The yielding SADV, field by field -/

section yieldNibble
variable (c : ChanIx) (k : Channel) (s : State)
@[simp] theorem yieldNibble_ch : (yieldNibble c k s).ch = s.ch.set c.toNat k.advance := rfl
@[simp] theorem yieldNibble_src : (yieldNibble c k s).src = s.src := rfl
@[simp] theorem yieldNibble_port : (yieldNibble c k s).port = s.port := rfl
@[simp] theorem yieldNibble_rsps : (yieldNibble c k s).rsps =
    s.rsps ++ [responseWord .ok (zext28 (extract (s.srcByte k.addr) (muxSelect k.pos k.ord)))] := rfl
@[simp] theorem yieldNibble_reads : (yieldNibble c k s).reads = s.reads ++ [k.addr] := rfl
@[simp] theorem yieldNibble_nch : (yieldNibble c k s).nch = s.nch := by simp [State.nch]
@[simp] theorem yieldNibble_srcByte (a : Addr) : (yieldNibble c k s).srcByte a = s.srcByte a := rfl
end yieldNibble

theorem yieldNibble_chan_self {s : State} {c : ChanIx} (h : c.toNat < s.nch) (k : Channel) :
    (yieldNibble c k s).chan? c = some k.advance := setChan_chan_self h _

theorem yieldNibble_chan_other (s : State) {c d : ChanIx} (h : d ≠ c) (k : Channel) :
    (yieldNibble c k s).chan? d = s.chan? d := setChan_chan_other s h _

/-! ### What any command can do -/

/-- The inversion lemma: a command only responds, or is a SCREATE on a channel that exists, or is a yielding SADV. -/
theorem exec_cases (i : Instr) (s : State) :
    (∃ st r, exec i s = .next (s.respond st r)) ∨
    (∃ c o base len, i = .screate c o base len ∧ c.toNat < s.nch ∧
      exec i s = .next ((s.setChan c (Channel.create o base len)).respond .ok 0)) ∨
    (∃ c k, i = .sadv c ∧ s.chan? c = some k ∧ k.idx ≠ k.len ∧ exec i s = .next (yieldNibble c k s)) := by
  cases i with
  | nval v =>
    cases h : outOfRange v with
    | false => exact .inl ⟨_, _, exec_nval_inRange h s⟩
    | true => exact .inl ⟨_, _, exec_nval_outOfRange h s⟩
  | nmask v => exact .inl ⟨_, _, exec_nmask v s⟩
  | hexp c =>
    cases h : hexNibble c with
    | none => exact .inl ⟨_, _, exec_hexp_other h s⟩
    | some n => exact .inl ⟨_, _, exec_hexp_digit h s⟩
  | ntoi n => exact .inl ⟨_, _, exec_ntoi n s⟩
  | hexr n => exact .inl ⟨_, _, exec_hexr n s⟩
  | split b => exact .inl ⟨_, _, exec_split b s⟩
  | comb h l => exact .inl ⟨_, _, exec_comb h l s⟩
  | screate c o base len =>
    rcases Nat.lt_or_ge c.toNat s.nch with h | h
    · exact .inr (.inl ⟨c, o, base, len, rfl, h, exec_screate_present h o base len⟩)
    · exact .inl ⟨_, _, exec_screate_absent h o base len⟩
  | sadv c =>
    rcases Nat.lt_or_ge c.toNat s.nch with h | h
    · obtain ⟨k, hk⟩ := chan_isSome h
      by_cases he : k.idx = k.len
      · exact .inl ⟨_, _, exec_sadv_exhausted hk he⟩
      · exact .inr (.inr ⟨c, k, rfl, hk, he, exec_sadv_yields hk he⟩)
    · exact .inl ⟨_, _, exec_sadv_absent h⟩

/-- What every command leaves alone, and that its responses and reads only grow: one response, at most one read. -/
theorem exec_frame {i : Instr} {s t : State} (h : exec i s = .next t) :
    t.src = s.src ∧ t.port = s.port ∧ t.nch = s.nch ∧ (∃ st r, t.rsps = s.rsps ++ [responseWord st r]) ∧
      (t.reads = s.reads ∨ ∃ a, t.reads = s.reads ++ [a]) := by
  obtain ⟨st, r, e⟩ | ⟨c, o, base, len, -, -, e⟩ | ⟨c, k, -, -, -, e⟩ := exec_cases i s <;>
    rw [e] at h <;> cases h
  · exact ⟨rfl, rfl, rfl, ⟨st, r, rfl⟩, .inl rfl⟩
  · exact ⟨rfl, rfl, by simp, ⟨_, _, rfl⟩, .inl rfl⟩
  · exact ⟨rfl, rfl, by simp, ⟨_, _, rfl⟩, .inr ⟨_, rfl⟩⟩

/-! ### Channels (R29) -/

theorem create_wf (o : Order) (base : Addr) (len : Count) : (Channel.create o base len).wf := by
  simp [Channel.wf, Channel.create, BitVec.le_def]

theorem reset_wf : Channel.reset.wf := by simp [Channel.wf, Channel.reset]

/-- SADV keeps a channel well formed where it is not exhausted. -/
theorem advance_wf {k : Channel} (h : k.wf) (he : k.idx ≠ k.len) : k.advance.wf := by
  obtain ⟨h1, h2⟩ := h
  have hlt : k.idx < k.len := by
    simp only [BitVec.le_def, BitVec.lt_def, ne_eq, ← BitVec.toNat_inj] at *
    omega
  cases hp : k.pos with
  | first => simp [Channel.wf, Channel.advance, hp, SubPos.flip, h1, hlt]
  | second =>
    have := k.len.isLt
    simp only [BitVec.lt_def] at hlt
    simp only [Channel.wf, Channel.advance, hp, SubPos.flip, BitVec.le_def, BitVec.toNat_add,
      show (1 : Count).toNat = 1 from rfl]
    exact ⟨by omega, fun h => by cases h⟩

end Sys2Proof.Machine
end

