-- ==== Sys2Proof/Laws/PerInstr.lean ====
section
/-! SUPPORT. The family EncodingFields (LAWS.json): what the encoder does for each command, one lemma per constructor. -/

namespace Sys2Proof.Laws.EncodingFields

open Sys2Proof Sys2Proof.Machine

/-- The word of `i` finds a row, passes the row's mask, gives back `i` when its fields are read, and names the channel that
`i` names (R63, R64, R69). -/
def Statement (i : Instr) : Prop :=
  ∃ row, findRow (encode i) = some row ∧ encode i &&& row.maskBits = row.matchBits ∧
    row.mnemonic.read (encode i) = i ∧ (row.format.hasChannel = i.channel?.isSome) ∧
    ∀ c, i.channel? = some c → fieldCH2 (encode i) = c

theorem nval (v : Int28) : Statement (.nval v) := by
  have e := encode_toNat (.nval v)
  have hv := v.isLt
  have op : fieldOP (encode (.nval v)) = 1#4 := by
    apply BitVec.eq_of_toNat_eq
    simp only [fieldOP, extract_toNat, e, BitVec.toNat_ofNat]
    omega
  refine ⟨_, findRow_of_opcode row_nval op, (mask_I _ 1#4).mpr op, ?_, rfl, fun c h => by cases h⟩
  show Instr.nval (fieldV28 _) = _
  congr 1
  exact extract_append_low _ _

theorem nmask (v : Int28) : Statement (.nmask v) := by
  have e := encode_toNat (.nmask v)
  have hv := v.isLt
  have op : fieldOP (encode (.nmask v)) = 2#4 := by
    apply BitVec.eq_of_toNat_eq
    simp only [fieldOP, extract_toNat, e, BitVec.toNat_ofNat]
    omega
  refine ⟨_, findRow_of_opcode row_nmask op, (mask_I _ 2#4).mpr op, ?_, rfl, fun c h => by cases h⟩
  show Instr.nmask (fieldV28 _) = _
  congr 1
  exact extract_append_low _ _

theorem hexp (c : CodePoint) : Statement (.hexp c) := by
  have e := encode_toNat (.hexp c)
  have hv := c.isLt
  have op : fieldOP (encode (.hexp c)) = 3#4 := by
    apply BitVec.eq_of_toNat_eq
    simp only [fieldOP, extract_toNat, e, BitVec.toNat_ofNat]
    omega
  have z : (encode (.hexp c)).extractLsb' 21 7 = 0#7 := by
    apply BitVec.eq_of_toNat_eq
    simp only [extract_toNat, e, BitVec.toNat_ofNat]
    omega
  refine ⟨_, findRow_of_opcode row_hexp op, (mask_C _).mpr ⟨op, z⟩, ?_, rfl, fun c h => by cases h⟩
  show Instr.hexp (fieldCP21 _) = _
  congr 1
  exact extract_append_low _ _

theorem ntoi (n : Nibble) : Statement (.ntoi n) := by
  have e := encode_toNat (.ntoi n)
  have hv := n.isLt
  have op : fieldOP (encode (.ntoi n)) = 4#4 := by
    apply BitVec.eq_of_toNat_eq
    simp only [fieldOP, extract_toNat, e, BitVec.toNat_ofNat]
    omega
  have z : (encode (.ntoi n)).extractLsb' 4 24 = 0#24 := by
    apply BitVec.eq_of_toNat_eq
    simp only [extract_toNat, e, BitVec.toNat_ofNat]
    omega
  refine ⟨_, findRow_of_opcode row_ntoi op, (mask_N _ 4#4).mpr ⟨op, z⟩, ?_, rfl, fun c h => by cases h⟩
  show Instr.ntoi (fieldN4 _) = _
  congr 1
  exact extract_append_low _ _

theorem hexr (n : Nibble) : Statement (.hexr n) := by
  have e := encode_toNat (.hexr n)
  have hv := n.isLt
  have op : fieldOP (encode (.hexr n)) = 5#4 := by
    apply BitVec.eq_of_toNat_eq
    simp only [fieldOP, extract_toNat, e, BitVec.toNat_ofNat]
    omega
  have z : (encode (.hexr n)).extractLsb' 4 24 = 0#24 := by
    apply BitVec.eq_of_toNat_eq
    simp only [extract_toNat, e, BitVec.toNat_ofNat]
    omega
  refine ⟨_, findRow_of_opcode row_hexr op, (mask_N _ 5#4).mpr ⟨op, z⟩, ?_, rfl, fun c h => by cases h⟩
  show Instr.hexr (fieldN4 _) = _
  congr 1
  exact extract_append_low _ _

theorem split (b : Byte) : Statement (.split b) := by
  have e := encode_toNat (.split b)
  have hv := b.isLt
  have op : fieldOP (encode (.split b)) = 6#4 := by
    apply BitVec.eq_of_toNat_eq
    simp only [fieldOP, extract_toNat, e, BitVec.toNat_ofNat]
    omega
  have z : (encode (.split b)).extractLsb' 8 20 = 0#20 := by
    apply BitVec.eq_of_toNat_eq
    simp only [extract_toNat, e, BitVec.toNat_ofNat]
    omega
  refine ⟨_, findRow_of_opcode row_split op, (mask_B _ 6#4).mpr ⟨op, z⟩, ?_, rfl, fun c h => by cases h⟩
  show Instr.split (fieldB8 _) = _
  congr 1
  exact extract_append_low _ _

theorem comb (h l : Nibble) : Statement (.comb h l) := by
  have e := encode_toNat (.comb h l)
  have hh := h.isLt
  have hl := l.isLt
  have op : fieldOP (encode (.comb h l)) = 7#4 := by
    apply BitVec.eq_of_toNat_eq
    simp only [fieldOP, extract_toNat, e, BitVec.toNat_ofNat]
    omega
  have z : (encode (.comb h l)).extractLsb' 8 20 = 0#20 := by
    apply BitVec.eq_of_toNat_eq
    simp only [extract_toNat, e, BitVec.toNat_ofNat]
    omega
  refine ⟨_, findRow_of_opcode row_comb op, (mask_B _ 7#4).mpr ⟨op, z⟩, ?_, rfl, fun c h => by cases h⟩
  show Instr.comb (fieldH4 _) (fieldL4 _) = _
  congr 1
  · apply BitVec.eq_of_toNat_eq
    simp only [fieldH4, extract_toNat, e]
    omega
  · exact extract_append_low _ _

theorem screate (c : ChanIx) (o : Order) (base : Addr) (len : Count) : Statement (.screate c o base len) := by
  have e := encode_toNat (.screate c o base len)
  have hc := c.isLt
  have hb := base.isLt
  have hl := len.isLt
  have ho := o.toBit.isLt
  dsimp only at e
  have op : fieldOP (encode (.screate c o base len)) = 8#4 := by
    apply BitVec.eq_of_toNat_eq
    simp only [fieldOP, extract_toNat, e, BitVec.toNat_ofNat]
    omega
  have z : (encode (.screate c o base len)).getLsbD 24 = false := by
    rw [bit_toNat, e, decide_eq_false_iff_not]
    omega
  have ch : fieldCH2 (encode (.screate c o base len)) = c := by
    apply BitVec.eq_of_toNat_eq
    simp only [fieldCH2, extract_toNat, e]
    omega
  refine ⟨_, findRow_of_opcode row_screate op, (mask_S _).mpr ⟨op, z⟩, ?_, rfl, fun d h => by cases h; exact ch⟩
  show Instr.screate (fieldCH2 _) (fieldORD _) (fieldBASE12 _) (fieldLEN12 _) = _
  congr 1
  · have : (encode (.screate c o base len)).getLsbD 25 = decide (o.toBit.toNat = 1) := by
      rw [bit_toNat, e]
      congr 1
      apply propext
      omega
    rw [fieldORD, this]
    cases o <;> rfl
  · apply BitVec.eq_of_toNat_eq
    simp only [fieldBASE12, extract_toNat, e]
    omega
  · apply BitVec.eq_of_toNat_eq
    simp only [fieldLEN12, extract_toNat, e]
    omega

theorem sadv (c : ChanIx) : Statement (.sadv c) := by
  have e := encode_toNat (.sadv c)
  have hc := c.isLt
  have op : fieldOP (encode (.sadv c)) = 9#4 := by
    apply BitVec.eq_of_toNat_eq
    simp only [fieldOP, extract_toNat, e, BitVec.toNat_ofNat]
    omega
  have z : (encode (.sadv c)).extractLsb' 0 26 = 0#26 := by
    apply BitVec.eq_of_toNat_eq
    simp only [extract_toNat, e, BitVec.toNat_ofNat]
    omega
  have ch : fieldCH2 (encode (.sadv c)) = c := by
    apply BitVec.eq_of_toNat_eq
    simp only [fieldCH2, extract_toNat, e]
    omega
  refine ⟨_, findRow_of_opcode row_sadv op, (mask_A _).mpr ⟨op, z⟩, ?_, rfl, fun d h => by cases h; exact ch⟩
  show Instr.sadv (fieldCH2 _) = _
  rw [ch]

end Sys2Proof.Laws.EncodingFields
end

