-- ==== Sys2Proof/Laws/Response.lean ====
section
/-! SUPPORT. Response words and the datapath on operands as numbers. -/

namespace Sys2Proof.Machine

/-! ### Response words (R61, R62) -/

@[simp] theorem statusOf_responseWord (st : Status) (r : BitVec 28) : statusOf (responseWord st r) = st.code :=
  extract_append_high _ _

@[simp] theorem resultOf_responseWord (st : Status) (r : BitVec 28) : resultOf (responseWord st r) = r :=
  extract_append_low _ _

theorem responseWord_toNat (st : Status) (r : BitVec 28) :
    (responseWord st r).toNat = st.code.toNat * 2 ^ 28 + r.toNat := append_toNat _ _

/-- A response word is its status and its result. -/
theorem word_eq_iff (w : Word) (st : Status) (r : BitVec 28) :
    w = responseWord st r ↔ statusOf w = st.code ∧ resultOf w = r := by
  constructor
  · rintro rfl; simp
  · rintro ⟨h1, h2⟩
    rw [← append_extract 4 28 w]
    exact append_inj.mpr ⟨h1, h2⟩

theorem legalStatus_responseWord (st : Status) (r : BitVec 28) : LegalStatus (responseWord st r) := by
  simp only [LegalStatus, statusOf_responseWord]
  cases st <;> decide

theorem code_injective {a b : Status} (h : a.code = b.code) : a = b := by
  revert h; cases a <;> cases b <;> decide

/-! ### The datapath (R7, R120, R121) -/

theorem zext28_toNat {w : Nat} (h : w ≤ 28) (v : BitVec w) : (zext28 v).toNat = v.toNat := by
  have := Nat.lt_of_lt_of_le v.isLt (Nat.pow_le_pow_right (by decide : 0 < 2) h)
  simp only [zext28, BitVec.toNat_setWidth]
  omega

theorem low4_toNat {w : Nat} (v : BitVec w) : (low4 v).toNat = v.toNat % 16 := by
  simp [low4]

theorem nibHigh_eq (b : Byte) : nibHigh b = b.extractLsb' 4 4 := by revert b; decide

theorem nibLow_eq (b : Byte) : nibLow b = b.extractLsb' 0 4 := by revert b; decide

theorem extract_eq (b : Byte) (hi : Bool) : extract b hi = if hi then b.extractLsb' 4 4 else b.extractLsb' 0 4 := by
  cases hi
  · exact nibLow_eq b
  · exact nibHigh_eq b

theorem pack_eq_append : ∀ h l : Nibble, pack h l = h ++ l := by decide

theorem pack_toNat (h l : Nibble) : (pack h l).toNat = 16 * h.toNat + l.toNat := by
  rw [pack_eq_append, append_toNat]; omega

/-- The address of the current byte (R47). -/
theorem addr_toNat (k : Channel) : k.addr.toNat = (k.base.toNat + k.idx.toNat) % 4096 := by
  simp [Channel.addr]

end Sys2Proof.Machine
end

