-- ==== Sys2Proof/Laws/Step.lean ====
section
/-! SUPPORT. What one step and one run can do, said once, and the induction over a run packaged once. -/

namespace Sys2Proof.Machine

/-! ### One event -/

theorem runEvent_write (s : State) (a : Addr) (b : Byte) : runEvent (.write a b) s = .next (s.hostWrite a b) := rfl

theorem runEvent_reset (s : State) : runEvent .reset s = .next s.resetBlock := rfl

theorem runEvent_command {s : State} {w : Word} {i : Instr} (h : decode s.nch w = .command i) :
    runEvent (.command w) s = exec i s := by
  simp [runEvent, acceptCommand, h]

theorem runEvent_illegal {s : State} {w : Word} {why : IllegalCause} (h : decode s.nch w = .illegal why) :
    runEvent (.command w) s = .next (s.respond .illegal 0) := by
  simp [runEvent, acceptCommand, h]

/-- The inversion lemma of one event: a decoded command, an ILLEGAL word, a host write, or a reset. -/
theorem runEvent_cases (e : HostEvent) (s : State) :
    (∃ w i, e = .command w ∧ decode s.nch w = .command i ∧ runEvent e s = exec i s) ∨
    (∃ w why, e = .command w ∧ decode s.nch w = .illegal why ∧ runEvent e s = .next (s.respond .illegal 0)) ∨
    (∃ a b, e = .write a b ∧ runEvent e s = .next (s.hostWrite a b)) ∨
    (e = .reset ∧ runEvent e s = .next s.resetBlock) := by
  cases e with
  | command w =>
    cases h : decode s.nch w with
    | command i => exact .inl ⟨w, i, rfl, h, runEvent_command h⟩
    | illegal why => exact .inr (.inl ⟨w, why, rfl, h, runEvent_illegal h⟩)
  | write a b => exact .inr (.inr (.inl ⟨a, b, rfl, rfl⟩))
  | reset => exact .inr (.inr (.inr ⟨rfl, rfl⟩))

/-- Every command answers a next state. -/
theorem exec_next (i : Instr) (s : State) : ∃ t, exec i s = .next t := by
  obtain ⟨_, _, e⟩ | ⟨_, _, _, _, _, _, e⟩ | ⟨_, _, _, _, _, e⟩ := exec_cases i s <;> exact ⟨_, e⟩

/-- Every event answers a next state. -/
theorem runEvent_next (e : HostEvent) (s : State) : ∃ t, runEvent e s = .next t := by
  obtain ⟨_, i, _, _, h⟩ | ⟨_, _, _, _, h⟩ | ⟨_, _, _, h⟩ | ⟨_, h⟩ := runEvent_cases e s
  · obtain ⟨t, ht⟩ := exec_next i s
    exact ⟨t, h.trans ht⟩
  all_goals exact ⟨_, h⟩

/-- No event changes what the host does next, or the number of channels. -/
theorem runEvent_port_nch {e : HostEvent} {s t : State} (h : runEvent e s = .next t) : t.port = s.port ∧ t.nch = s.nch := by
  obtain ⟨_, i, _, _, e⟩ | ⟨_, _, _, _, e⟩ | ⟨_, _, _, e⟩ | ⟨_, e⟩ := runEvent_cases e s <;> rw [e] at h
  · exact ⟨(exec_frame h).2.1, (exec_frame h).2.2.1⟩
  all_goals cases h; simp

/-! ### One step -/

theorem step_idle {s : State} (h : s.port = []) : step s = .next s := by simp [step, h, State.idle]

theorem step_cons {s : State} {e : HostEvent} {rest : List HostEvent} (h : s.port = e :: rest) :
    step s = runEvent e (s.withPort rest) := by simp [step, h, State.withPort]

/-- The inversion lemma of a step: nothing presented, or one event. -/
theorem step_cases (s : State) :
    (s.port = [] ∧ step s = .next s) ∨ ∃ e rest, s.port = e :: rest ∧ step s = runEvent e (s.withPort rest) := by
  cases h : s.port with
  | nil => exact .inl ⟨rfl, step_idle h⟩
  | cons e rest => exact .inr ⟨e, rest, rfl, step_cons h⟩

theorem step_next (s : State) : ∃ t, step s = .next t := by
  obtain ⟨_, h⟩ | ⟨e, rest, _, h⟩ := step_cases s
  · exact ⟨s, h⟩
  · obtain ⟨t, ht⟩ := runEvent_next e (s.withPort rest)
    exact ⟨t, h.trans ht⟩

/-! ### Runs -/

@[simp] theorem runSteps_zero (s : State) : runSteps 0 s = .next s := rfl

theorem runSteps_succ {s t : State} (h : step s = .next t) (n : Nat) : runSteps (n + 1) s = runSteps n t := by
  simp only [runSteps, Host.Core.run, Sys2Proof.core]
  rw [h]

theorem runSteps_add {s t : State} {m : Nat} (h : runSteps m s = .next t) (n : Nat) :
    runSteps (m + n) s = runSteps n t := by
  induction m generalizing s with
  | zero => cases h; simp
  | succ m ih =>
    obtain ⟨u, hu⟩ := step_next s
    rw [runSteps_succ hu] at h
    rw [Nat.add_right_comm, runSteps_succ hu, ih h]

/-- One event of a run. -/
theorem runSteps_cons {s t : State} {e : HostEvent} {rest : List HostEvent} (h : runEvent e (s.withPort rest) = .next t)
    (n : Nat) : runSteps (n + 1) (s.withPort (e :: rest)) = runSteps n t := by
  apply runSteps_succ
  rw [step_cons (e := e) (rest := rest) rfl]
  exact h

/-- The induction over the events of a run, packaged once: what holds at the start, does not look at the port, and is kept by
every event that satisfies `Q`, holds after events that satisfy `Q`. -/
theorem run_induction {P : State → Prop} {Q : HostEvent → Prop} (hport : ∀ s evs, P s → P (s.withPort evs))
    (hstep : ∀ e s t, Q e → P s → runEvent e s = .next t → P t) (evs rest : List HostEvent) (s : State)
    (hQ : ∀ e ∈ evs, Q e) (hP : P s) :
    ∃ t, runSteps evs.length (s.withPort (evs ++ rest)) = .next t ∧ t.port = rest ∧ P t := by
  induction evs generalizing s with
  | nil => exact ⟨s.withPort rest, rfl, rfl, hport s rest hP⟩
  | cons e evs ih =>
    obtain ⟨u, hu⟩ := runEvent_next e (s.withPort (evs ++ rest))
    have hPu := hstep e _ u (hQ e (by simp)) (hport s _ hP) hu
    obtain ⟨t, ht, hp, hPt⟩ := ih u (fun e he => hQ e (by simp [he])) hPu
    have hup : u = u.withPort (evs ++ rest) := by
      have := (runEvent_port_nch hu).1
      rw [withPort_port] at this
      rw [← this, withPort_self]
    exact ⟨t, by rw [List.length_cons, List.cons_append, runSteps_cons hu, hup]; exact ht, hp, hPt⟩

end Sys2Proof.Machine
end

