-- ==== Sys2Proof/Laws/Sequence.lean ====
section
/-! SUPPORT. A channel along its sequence: what one SADV does to a channel that has yielded `k` nibbles (spec/42_sequence.md R142
to R144), and the nibble in terms of the span. -/

namespace Sys2Proof.Machine

/-- An OK response that carries a nibble, as its word (R61). -/
theorem okNibble_word (n : Nibble) : responseWord .ok (zext28 n) = 0#28 ++ n := by
  apply BitVec.eq_of_toNat_eq
  rw [responseWord_toNat, zext28_toNat (by decide), append_toNat]
  simp [Status.code]

/-- A fresh sequence is its cursor at 0. -/
theorem create_eq_cursorAt (o : Order) (base : Addr) (len : Count) : Channel.create o base len = cursorAt o base len 0 := rfl

section cursor
variable (o : Order) (base : Addr) (len : Count)

/-- The cursor has reached the end exactly after `2 × len` nibbles (R30, R31). -/
theorem cursorAt_exhausted_iff {k : Nat} (hk : k ≤ 2 * len.toNat) :
    (cursorAt o base len k).idx = (cursorAt o base len k).len ↔ k = 2 * len.toNat := by
  have := len.isLt
  have e : (cursorAt o base len k).idx.toNat = k / 2 := by
    simp only [cursorAt, BitVec.toNat_ofNat]
    omega
  rw [← BitVec.toNat_inj, e]
  show k / 2 = len.toNat ↔ _
  omega

/-- One nibble further, the cursor is the next one (R142). -/
theorem cursorAt_advance (k : Nat) : (cursorAt o base len k).advance = cursorAt o base len (k + 1) := by
  rcases Nat.mod_two_eq_zero_or_one k with h | h
  · have h1 : (k + 1) % 2 = 1 := by omega
    have h2 : (k + 1) / 2 = k / 2 := by omega
    simp [cursorAt, Channel.advance, SubPos.flip, h, h1, h2]
  · have h1 : (k + 1) % 2 = 0 := by omega
    have h2 : (k + 1) / 2 = k / 2 + 1 := by omega
    simp [cursorAt, Channel.advance, SubPos.flip, h, h1, h2, BitVec.ofNat_add]

/-- The address the cursor reads (R47). -/
theorem cursorAt_addr (k : Nat) : (cursorAt o base len k).addr = BitVec.ofNat 12 (base.toNat + k / 2) := by
  apply BitVec.eq_of_toNat_eq
  rw [addr_toNat]
  simp [cursorAt]

/-- The nibble the cursor selects is nibble_k of R144. -/
theorem cursorAt_nibble (s : State) (k : Nat) :
    extract (s.srcByte (cursorAt o base len k).addr) (muxSelect (cursorAt o base len k).pos (cursorAt o base len k).ord) =
      s.nibbleAt o base k := by
  rw [extract_eq, cursorAt_addr]
  rcases Nat.mod_two_eq_zero_or_one k with h | h <;> cases o <;>
    simp [cursorAt, muxSelect, State.nibbleAt, State.spanByte, h]

end cursor

/-- Writing back what a channel holds changes nothing. -/
theorem set_getElem?_self {l : List Channel} {n : Nat} {k : Channel} (h : l[n]? = some k) : l.set n k = l := by
  obtain ⟨hn, rfl⟩ := List.getElem?_eq_some_iff.mp h
  exact List.set_getElem_self hn

/-- SADV on a channel that has yielded `k` nibbles: the response number `k` of its sequence, and the cursor one further, at most
at the end. -/
theorem exec_sadv_cursor {s : State} {c : ChanIx} {o : Order} {base : Addr} {len : Count} {k : Nat}
    (h : s.chan? c = some (cursorAt o base len k)) (hk : k ≤ 2 * len.toNat) :
    ∃ t, exec (.sadv c) s = .next t ∧ t.rsps = s.rsps ++ [s.sequenceResponse o base len k] ∧ t.src = s.src ∧ t.port = s.port ∧
      t.ch = s.ch.set c.toNat (cursorAt o base len (min (k + 1) (2 * len.toNat))) := by
  by_cases he : k = 2 * len.toNat
  · refine ⟨_, exec_sadv_exhausted h ((cursorAt_exhausted_iff o base len hk).mpr he), ?_, rfl, rfl, ?_⟩
    · simp [State.sequenceResponse, he, responseWord, Status.code]
    · rw [Nat.min_eq_right (by omega), ← he, respond_ch]
      exact (set_getElem?_self h).symm
  · refine ⟨_, exec_sadv_yields h (fun e => he ((cursorAt_exhausted_iff o base len hk).mp e)), ?_, rfl, rfl, ?_⟩
    · rw [yieldNibble_rsps, cursorAt_nibble, okNibble_word, State.sequenceResponse, if_pos (by omega)]
    · rw [Nat.min_eq_left (by omega), yieldNibble_ch, cursorAt_advance]

/-- The sequence depends on SRC over the span only (R145). -/
theorem sequenceResponse_congr {s t : State} {base : Addr} {len : Count}
    (h : ∀ i < len.toNat, s.spanByte base i = t.spanByte base i) (o : Order) (k : Nat) :
    s.sequenceResponse o base len k = t.sequenceResponse o base len k := by
  unfold State.sequenceResponse
  split
  · unfold State.nibbleAt
    rw [h (k / 2) (by omega)]
  · rfl

end Sys2Proof.Machine
end

