-- ==== Sys2Proof/Tests/Slice0.lean ====
section
/-! SUPPORT. The model's own tests. Expected values are those of spec/95_test_vectors.md and of the tables of spec/30_encoding.md and
spec/60_exceptions.md; each test names its source. After them, one witness per statement of Obligations.lean that has hypotheses. -/

namespace Sys2Proof.Tests

open Sys2Proof Sys2Proof.Machine

/-! ### Small states -/

/-- A block with NCH = 2 right after reset (95_test_vectors.md, Conventions). -/
def two : State := State.resetWith 2

/-- `two` with channel 0 as given and SRC as given. -/
def withChan (k : Channel) (src : List Host.Cell) : State := { two with ch := [k, Channel.reset], src := src }

/-- The response of one step to a command word, if the step completes and gives one. -/
def answer (s : State) (w : Word) : Option Word :=
  match step (s.present w) with
  | .next t => t.rsps.getLast?
  | .fault _ => none
  | .refused _ => none

/-- Channel 0 after one step on a command word. -/
def chanAfter (s : State) (w : Word) : Option Channel :=
  match step (s.present w) with
  | .next t => t.chan? 0
  | .fault _ => none
  | .refused _ => none

/-! ### WellFormed: each check refuses an ill-formed term -/

theorem test_wf_screate_absent_channel : (Instr.screate 2 .highFirst 0 0).wellFormed 2 = false := by decide
theorem test_wf_sadv_absent_channel : (Instr.sadv 3).wellFormed 3 = false := by decide
theorem test_wf_sadv_present_channel : (Instr.sadv 3).wellFormed 4 = true := by decide

/-! ### Decoding: words written out bit by bit from the layouts of R63 -/

theorem test_decode_nval : decode 2 0b0001_0000000000000000000000011111 = .command (.nval 31) := by decide
theorem test_decode_nmask : decode 2 0b0010_0000000000001010101111001101 = .command (.nmask 0xABCD) := by decide
theorem test_decode_hexp : decode 2 0b0011_0000000_000000000000001100110 = .command (.hexp 0x66) := by decide
theorem test_decode_ntoi : decode 2 0b0100_000000000000000000000000_1001 = .command (.ntoi 9) := by decide
theorem test_decode_hexr : decode 2 0b0101_000000000000000000000000_1010 = .command (.hexr 10) := by decide
theorem test_decode_split : decode 2 0b0110_00000000000000000000_01001011 = .command (.split 0x4B) := by decide
theorem test_decode_comb : decode 2 0b0111_00000000000000000000_0100_1011 = .command (.comb 4 11) := by decide
theorem test_decode_screate :
    decode 2 0b1000_01_1_0_000100000000_000000000010 = .command (.screate 1 .lowFirst 0x100 2) := by decide
theorem test_decode_sadv : decode 2 0b1001_01_00000000000000000000000000 = .command (.sadv 1) := by decide
theorem test_decode_zero_word : decode 2 0 = .illegal .reservedOpcode := by decide
theorem test_decode_bit24 : decode 2 0x81000000 = .illegal .reservedBit := by decide
theorem test_decode_channel2 : decode 2 0x98000000 = .illegal .noSuchChannel := by decide
theorem test_table_word : decodeTableWord 32 0x94000000 = some (.sadv 1) := by decide

/-! ### Value unit (95_test_vectors.md 1 and 2.1) -/

theorem test_nval_15_16 : answer two 0x1000000F = some 0x0000000F ∧ answer two 0x10000010 = some 0x20000010 := by decide
theorem test_nval_largest : answer two 0x1FFFFFFF = some 0x2FFFFFFF := by decide
theorem test_nmask : answer two 0x2000ABCD = some 0x0000000D ∧ answer two 0x2FFFFFFE = some 0x0000000E := by decide
theorem test_ntoi : answer two 0x4000000F = some 0x0000000F ∧ answer two 0x40000010 = some 0xF0000000 := by decide
theorem test_hexp_digits : answer two 0x30000039 = some 9 ∧ answer two 0x30000046 = some 15 ∧ answer two 0x30000061 = some 10 := by
  decide
theorem test_hexp_neighbours : answer two 0x3000002F = some 0x3000002F ∧ answer two 0x30000047 = some 0x30000047 ∧
    answer two 0x30000060 = some 0x30000060 ∧ answer two 0x301FFFFF = some 0x301FFFFF := by decide
theorem test_hexr : answer two 0x50000009 = some 0x39 ∧ answer two 0x5000000A = some 0x61 := by decide

/-! ### Codec (95_test_vectors.md 2.2) -/

theorem test_split : answer two 0x600000F0 = some 0xF0 ∧ answer two 0x60000100 = some 0xF0000000 := by decide
theorem test_comb : answer two 0x7000000F = some 0x0F ∧ answer two 0x70001000 = some 0xF0000000 := by decide

/-! ### Sequence unit (95_test_vectors.md 2.3, P1, P3) -/

theorem test_screate : chanAfter two 0x80100002 =
    some { base := 0x100, len := 2, idx := 0, pos := .first, ord := .highFirst } := by decide
theorem test_screate_absent : answer two 0x88000000 = some 0xF0000000 := by decide
theorem test_sadv_after_reset : answer two 0x90000000 = some 0x10000000 := by decide
/-- 2.3, LowFirst, step 3: the second nibble moves IDX on. -/
theorem test_sadv_second_nibble : let s := withChan ⟨0x100, 2, 0, .second, .lowFirst⟩ [(0x100, 0x4B), (0x101, 0xF0)]
    answer s 0x90000000 = some 0x00000004 ∧ chanAfter s 0x90000000 = some ⟨0x100, 2, 1, .first, .lowFirst⟩ := by decide
/-- P3, step 7: the span wraps to address 0x000. -/
theorem test_sadv_wraps :
    answer (withChan ⟨0xFFF, 2, 1, .first, .highFirst⟩ [(0x000, 0x34), (0xFFF, 0x12)]) 0x90000000 = some 0x00000003 := by
  decide

/-! ### Host events and the assembler (20_memory.md R42; 30_encoding.md R72 to R74) -/

theorem test_store_overwrites : Memory.store [(1, 0xAA), (3, 0xBB)] 3 0xCC = [(1, 0xAA), (3, 0xCC)] := by decide
theorem test_store_keeps_order : Memory.store [(1, 0xAA), (3, 0xBB)] 2 0xCC = [(1, 0xAA), (2, 0xCC), (3, 0xBB)] := by decide
theorem test_asm_literal : assembleLine "HEXP 'f' ; W4".toList = .word 0x30000066 := by decide
theorem test_asm_screate : assembleLine "SCREATE 1, lf, 0x100, 2".toList = .word 0x86100002 := by decide
theorem test_asm_default_order : assembleLine "SCREATE 0, 0x100, 2".toList = .word 0x80100002 := by decide
theorem test_asm_out_of_range : assembleLine "NTOI 16".toList = .error .outOfRange := by decide

/-! ### Witnesses: states and operands that meet each statement's hypotheses together -/

/-- A command word whose opcode is not SCREATE's is no SCREATE on any channel. -/
theorem noCreate_of_opcode {w : Word} (h : fieldOP w ≠ 8#4) (c : ChanIx) : (HostEvent.command w).NoCreate c := by
  intro o base len e
  cases e
  apply h
  apply BitVec.eq_of_toNat_eq
  have := encode_toNat (.screate c o base len)
  have hc := c.isLt
  have hb := base.isLt
  have hl := len.isLt
  have ho := o.toBit.isLt
  dsimp only at this
  simp only [fieldOP, extract_toNat, this, BitVec.toNat_ofNat]
  omega

theorem witness_DecodeOfEncodeIsTheCommand :
    (Instr.screate 1 .lowFirst 0xFFF 0xFFF).wellFormed 2 = true ∧ (Instr.nval 0xFFFFFFF).wellFormed 1 = true := by decide
theorem witness_EncodeOfDecodeIsTheWord : decode 4 0x9C000000 = .command (.sadv 3) := by decide
theorem witness_MatchAndMaskDecideTheCommands :
    (0x10000000#32, 0xF0000000#32, false) ∈ specRows ∧ 0x1FFFFFFF#32 &&& 0xF0000000#32 = 0x10000000#32 := by
  exact ⟨by simp [specRows], by decide⟩
theorem witness_ReservedOpcodeIsIllegal :
    (two.present 0xA0000000).port = .command 0xA0000000 :: [] ∧ ReservedOpcode 0x0FFFFFFF ∧ ReservedOpcode 0xA0000000 ∧
      ReservedOpcode 0xFFFFFFFF := by decide
theorem witness_ReservedBitIsIllegal :
    (two.present 0x30200030).port = .command 0x30200030 :: [] ∧ ReservedBit 0x30200030 ∧ ReservedBit 0x40000010 ∧
      ReservedBit 0x58000000 ∧ ReservedBit 0x60000100 ∧ ReservedBit 0x78000000 ∧ ReservedBit 0x81000000 ∧
      ReservedBit 0x90000001 :=
  ⟨by decide, by decide, by decide, by decide, by decide, by decide, by decide, by decide⟩
theorem witness_IllegalForExactlyItsCauses :
    (two.present 0x98000000).port = .command 0x98000000 :: [] ∧ NoSuchChannel 2 0x98000000 ∧ NoSuchChannel 3 0x8C000000 ∧
      ¬ NoSuchChannel 2 0x94000000 := by decide
theorem witness_StepRunsTheDecodedCommand :
    (two.present 0x94000000).port = .command 0x94000000 :: [] ∧ decode two.nch 0x94000000 = .command (.sadv 1) := by decide
theorem witness_EveryCommandCompletesWithOneResponse : (two.present 0).port = .command 0 :: [] := by decide
theorem witness_OnlyLegalStatuses : ∃ t, step (two.present 0) = .next t ∧ 0xF0000000 ∈ t.rsps := ⟨_, rfl, by decide⟩
theorem witness_HostWriteChangesOneByte : (two.withPort [.write 0xFFF 0x12]).port = .write 0xFFF 0x12 :: [] := by decide
theorem witness_ChannelFieldsResetValuesAndWriters :
    (two.withPort [.reset]).port = .reset :: [] ∧
    ∃ t, (two.present 0x80100002).port = .command 0x80100002 :: [] ∧ step (two.present 0x80100002) = .next t ∧
      (two.present 0x80100002).chan? 0 = some Channel.reset ∧ t.chan? 0 = some ⟨0x100, 2, 0, .first, .highFirst⟩ :=
  ⟨by decide, _, by decide, rfl, by decide, by decide⟩
/-- The SADV side of the writers: a second nibble moves IDX and POS of its channel. -/
theorem witness_ChannelFieldsResetValuesAndWriters_sadv :
    let s := withChan ⟨0xFFF, 4095, 4094, .second, .lowFirst⟩ []
    ∃ t, (s.present 0x90000000).port = .command 0x90000000 :: [] ∧ step (s.present 0x90000000) = .next t ∧
      (s.present 0x90000000).chan? 0 = some ⟨0xFFF, 4095, 4094, .second, .lowFirst⟩ ∧
      t.chan? 0 = some ⟨0xFFF, 4095, 4095, .first, .lowFirst⟩ ∧ 0x90000000 = encode (.sadv 0) :=
  ⟨_, by decide, rfl, by decide, by decide, by decide⟩
theorem witness_UncreatedChannelsAnswerEnd : (1#2).toNat < two.nch ∧
    ∀ e ∈ [HostEvent.command 0x94000000, .write 0x10 1, .reset, .command 0x10000005], e.NoCreate 1 := by
  refine ⟨by decide, fun e he => ?_⟩
  simp only [List.mem_cons, List.not_mem_nil, or_false] at he
  rcases he with rfl | rfl | rfl | rfl
  · exact noCreate_of_opcode (by decide) 1
  · exact fun _ _ _ h => by cases h
  · exact fun _ _ _ h => by cases h
  · exact noCreate_of_opcode (by decide) 1
theorem witness_ResetHoldsTheInvariant : 1 ≤ 1 ∧ 1 ≤ 4 ∧ 1 ≤ 4 ∧ 4 ≤ 4 := by decide
/-- Channel 1 in the middle of its last byte: both halves of R29 at their boundary. -/
def midByte (evs : List HostEvent) : State :=
  { ch := [Channel.reset, ⟨0xFFF, 4095, 4094, .second, .lowFirst⟩], src := [(0, 1), (4095, 2)], port := evs,
    rsps := [0xF0000000, 0x10000000], reads := [] }
theorem midByte_inv (evs : List HostEvent) : (midByte evs).Inv :=
  ⟨by show 1 ≤ 2; decide, by show 2 ≤ 4; decide, by show ∀ k ∈ [_, _], _; decide, by show Memory.wf [(0, 1), (4095, 2)]; decide,
    fun r hr => by simp [midByte] at hr; rcases hr with rfl | rfl <;> decide⟩
theorem witness_StepKeepsTheInvariant :
    ∃ s t : State, s.Inv ∧ step s = .next t ∧ t.chan? 1 = some ⟨0xFFF, 4095, 4095, .first, .lowFirst⟩ :=
  ⟨midByte [.command 0x94000000], _, midByte_inv _, rfl, by decide⟩
theorem witness_EveryChannelAlwaysWellFormed :
    (∃ t, runSteps 1 ((State.resetWith 1).withPort [.command 0x80100002]) = .next t ∧ t.ch ≠ []) ∧
    (∃ t, exec (.screate 0 .lowFirst 0 1) two = .next t ∧ (t.chan? 0).isSome = true) ∧
    (∃ t, exec (.sadv 0) (withChan ⟨0, 1, 0, .second, .lowFirst⟩ []) = .next t ∧
      (⟨0, 1, 0, .second, .lowFirst⟩ : Channel).wf ∧ t.chan? 0 = some ⟨0, 1, 1, .first, .lowFirst⟩) :=
  ⟨⟨_, rfl, by decide⟩, ⟨_, rfl, by decide⟩, ⟨_, rfl, by decide, by decide⟩⟩
theorem witness_NvalValidatesItsOperand : 0x1FFFFFFF#32 &&& 0xF0000000 = 0x10000000 ∧
    (-(2 ^ 27) : Int) ≤ -(2 ^ 27) ∧ (-(2 ^ 27) : Int) < 0 ∧ (-(2 ^ 27) : Int) ≤ -1 ∧ (-1 : Int) < 0 := by decide
theorem witness_NmaskTakesTheLowFourBits : 0x2FFFFFFF#32 &&& 0xF0000000 = 0x20000000 := by decide
theorem witness_NtoiZeroExtends : 0x4000000F#32 &&& 0xFFFFFFF0 = 0x40000000 ∧ 4 ≤ 4 := by decide
theorem witness_HexpParsesExactlyTheHexDigits : 0x301FFFFF#32 &&& 0xFFE00000 = 0x30000000 := by decide
theorem witness_HexrRendersLowerCase : 0x5000000F#32 &&& 0xFFFFFFF0 = 0x50000000 := by decide
theorem witness_ValueUnitLaws : (15#28).toNat ≤ 15 ∧ 16 ≤ (16#28).toNat ∧ (0x30 ≤ (0x39#21).toNat ∧ (0x39#21).toNat ≤ 0x39) ∧
    (0x41 ≤ (0x46#21).toNat ∧ (0x46#21).toNat ≤ 0x46) ∧ (0x61 ≤ (0x66#21).toNat ∧ (0x66#21).toNat ≤ 0x66) ∧
    ¬ ((0x30 ≤ (0x3A#21).toNat ∧ (0x3A#21).toNat ≤ 0x39) ∨ (0x41 ≤ (0x3A#21).toNat ∧ (0x3A#21).toNat ≤ 0x46) ∨
      (0x61 ≤ (0x3A#21).toNat ∧ (0x3A#21).toNat ≤ 0x66)) := by decide
theorem witness_SplitGivesHighAndLow : 0x600000FF#32 &&& 0xFFFFFF00 = 0x60000000 := by decide
theorem witness_CombPacksHighOverLow : 0x700000FF#32 &&& 0xFFFFFF00 = 0x70000000 := by decide
theorem witness_ScreateWritesItsChannel :
    (0x86100002#32 &&& 0xF1000000 = 0x80000000 ∧ ((0x86100002#32).extractLsb' 26 2).toNat < 2) ∧
    ((two.present 0x81000000).port = .command 0x81000000 :: [] ∧ ((0x81000000#32).extractLsb' 28 4).toNat = 8 ∧
      (0x81000000#32).getLsbD 24 = true) ∧
    two.nch ≤ ((0x88000000#32).extractLsb' 26 2).toNat ∧ (1#2).toNat < two.nch := by decide
theorem witness_SadvYieldsTheNextNibble :
    (0x94000000#32 &&& 0xF3FFFFFF = 0x90000000 ∧ ((0x94000000#32).extractLsb' 26 2).toNat < 2) ∧
    ((two.present 0x90000001).port = .command 0x90000001 :: [] ∧ ((0x90000001#32).extractLsb' 28 4).toNat = 9 ∧
      (0x90000001#32).extractLsb' 0 26 ≠ 0#26) ∧
    two.nch ≤ ((0x98000000#32).extractLsb' 26 2).toNat ∧
    (two.ch[(0#2).toNat]? = some Channel.reset ∧ Channel.reset.idx = Channel.reset.len) ∧
    ((withChan ⟨0xFFF, 4095, 4094, .second, .lowFirst⟩ []).ch[(0#2).toNat]? = some ⟨0xFFF, 4095, 4094, .second, .lowFirst⟩ ∧
      (4094#12) ≠ 4095#12) := by decide
/-- The last clause: other commands, a host write and a reset come in between. -/
theorem witness_SadvYieldsTheNextNibble_end : two.ch[(1#2).toNat]? = some Channel.reset ∧
    Channel.reset.idx = Channel.reset.len ∧
    ∀ e ∈ [HostEvent.command 0x94000000, .write 0 1, .reset], e.NoCreate 1 := by
  refine ⟨by decide, by decide, fun e he => ?_⟩
  simp only [List.mem_cons, List.not_mem_nil, or_false] at he
  rcases he with rfl | rfl | rfl
  · exact noCreate_of_opcode (by decide) 1
  · exact fun _ _ _ h => by cases h
  · exact fun _ _ _ h => by cases h
theorem witness_AbsentChannelAnswersIllegal : two.nch ≤ (2#2).toNat := by decide
theorem witness_RemainingCountsTheNibblesLeft :
    Channel.reset.wf ∧ (⟨0, 4095, 4094, .second, .highFirst⟩ : Channel).wf ∧
    (∃ t, (1#2).toNat < two.nch ∧ exec (.screate 1 .lowFirst 0 4095) two = .next t) ∧
    (withChan ⟨0, 4095, 4094, .second, .highFirst⟩ []).chan? 0 = some ⟨0, 4095, 4094, .second, .highFirst⟩ :=
  ⟨by decide, by decide, ⟨_, by decide, rfl⟩, by decide⟩
theorem witness_InterleavedSequenceYieldsInOrder : (0#2).toNat < two.nch ∧
    ∀ e ∈ [HostEvent.command 0x90000000, .command 0xA0000000, .write 0x001 1, .command 0x94000000],
      e.KeepsSequence 0 0xFFF 2 := by
  refine ⟨by decide, fun e he => ?_⟩
  simp only [List.mem_cons, List.not_mem_nil, or_false] at he
  rcases he with rfl | rfl | rfl | rfl
  · exact ⟨noCreate_of_opcode (by decide) 0, (fun h => by cases h), fun _ _ h => by cases h⟩
  · exact ⟨noCreate_of_opcode (by decide) 0, (fun h => by cases h), fun _ _ h => by cases h⟩
  · exact ⟨(fun _ _ _ h => by cases h), (fun h => by cases h), fun a b h i hi => by cases h; revert i; decide⟩
  · exact ⟨noCreate_of_opcode (by decide) 0, (fun h => by cases h), fun _ _ h => by cases h⟩
theorem witness_WholeSequenceInOneRun : (3#2).toNat < (State.resetWith 4).nch := by decide
theorem witness_RestartYieldsTheSameSequence : (0#2).toNat < two.nch ∧ (1#2).toNat < (withChan Channel.reset [(5, 1)]).nch ∧
    ∀ i < (2#12).toNat, two.spanByte 0 i = (withChan Channel.reset [(5, 1)]).spanByte 0 i := by
  refine ⟨by decide, by decide, fun i hi => ?_⟩
  have : i = 0 ∨ i = 1 := by simp at hi; omega
  rcases this with rfl | rfl <;> rfl
theorem witness_CommandTouchesOnlyItsChannel : (Instr.sadv 0).channel? = some 0 ∧ (1#2) ≠ 0#2 ∧
    (∃ t, exec (.sadv 0) two = .next t) ∧
    two.nch = ({ two with ch := [Channel.reset, ⟨1, 2, 1, .second, .lowFirst⟩] } : State).nch ∧
    two.chan? 0 = ({ two with ch := [Channel.reset, ⟨1, 2, 1, .second, .lowFirst⟩] } : State).chan? 0 ∧
    ∀ a, two.srcByte a = ({ two with ch := [Channel.reset, ⟨1, 2, 1, .second, .lowFirst⟩] } : State).srcByte a :=
  ⟨by decide, by decide, ⟨_, rfl⟩, by decide, by decide, fun _ => rfl⟩
theorem witness_CommandsOnDifferentChannelsCommute : (Instr.sadv 0).channel? = some 0 ∧
    (Instr.screate 1 .lowFirst 0 1).channel? = some 1 ∧ (0#2) ≠ 1#2 := by decide
theorem witness_ValueAndCodecCommandsArePure : (Instr.nval 16).channel? = none ∧ (Instr.comb 15 0).channel? = none ∧
    1 ≤ ((0x1FFFFFFF#32).extractLsb' 28 4).toNat ∧ ((0x7FFFFFFF#32).extractLsb' 28 4).toNat ≤ 7 ∧
    (two.present 0x1FFFFFFF).port = .command 0x1FFFFFFF :: [] := by decide
theorem witness_NonOkStatusChangesNothing : ∃ t, (two.present 0x10000010).port = .command 0x10000010 :: [] ∧
    step (two.present 0x10000010) = .next t ∧ t.rsps = two.rsps ++ [0x20000010] ∧ statusOf 0x20000010 ≠ 0 :=
  ⟨_, by decide, rfl, by decide, by decide⟩
theorem witness_StatusTable : (Instr.sadv 1).wellFormed two.nch = true ∧ (Instr.nval 16).wellFormed two.nch = true := by decide
theorem witness_StatusTable_illegal : (two.present 0x98000000).port = .command 0x98000000 :: [] ∧
    ∀ i, decode two.nch 0x98000000 ≠ .command i :=
  ⟨by decide, fun i h => by rw [show decode two.nch 0x98000000 = .illegal .noSuchChannel by decide] at h; cases h⟩
theorem witness_NibbleResultsAreInRange : ∃ t, exec (.nmask 0xFFFFFFF) two = .next t ∧ t.rsps = two.rsps ++ [0x0000000F] ∧
    statusOf 0x0000000F = 0 := ⟨_, rfl, by decide, by decide⟩
theorem witness_NoHiddenState : (two.withPort [.reset]).port = .reset :: [] ∧
    ({ two with port := [.reset, .reset], rsps := [0], reads := [7] } : State).port = .reset :: [.reset] ∧
    two.ch = ({ two with port := [.reset, .reset], rsps := [0], reads := [7] } : State).ch ∧
    ∀ a, two.srcByte a = ({ two with port := [.reset, .reset], rsps := [0], reads := [7] } : State).srcByte a :=
  ⟨by decide, by decide, by decide, fun _ => rfl⟩
theorem witness_OnlyYieldingSadvReadsOneByte :
    ∃ t, exec (.sadv 0) (withChan ⟨0xFFF, 2, 1, .first, .highFirst⟩ []) = .next t ∧ t.reads = [0x000] := ⟨_, rfl, by decide⟩
theorem witness_HostWriteIsSeenByLaterSadv :
    (∃ t k, (∀ e ∈ [HostEvent.write 0x021 7], ∀ x, e ≠ .write 0x020 x) ∧
      runSteps 2 ((withChan ⟨0x020, 1, 0, .second, .highFirst⟩ []).withPort
        [.write 0x020 0xAB, .write 0x021 7, .command (encode (.sadv 0))]) = .next t ∧
      t.chan? 0 = some k ∧ k.idx ≠ k.len ∧ k.base + k.idx = 0x020) ∧
    ((withChan ⟨0x020, 1, 0, .first, .highFirst⟩ []).chan? 0 = some ⟨0x020, 1, 0, .first, .highFirst⟩ ∧ (0#12) ≠ 1#12) := by
  refine ⟨⟨_, ⟨0x020, 1, 0, .second, .highFirst⟩, fun e he x h => ?_, rfl, by decide, by decide, by decide⟩, by decide⟩
  rw [List.mem_singleton.mp he] at h
  revert h
  simp
theorem witness_HostWritesAfterCreateAreSeen : (1#2).toNat < two.nch := by decide
theorem witness_SrcChangesOnlyByHostWrites :
    ∀ e ∈ [HostEvent.write 0x001 7, .reset, .command 0x90000000], ∀ b, e ≠ .write 0x000 b := by
  intro e he b
  simp only [List.mem_cons, List.not_mem_nil, or_false] at he
  rcases he with rfl | rfl | rfl <;> simp
theorem witness_FrameOfValueAndCodecCommands : ∃ t, (Instr.split 0xFF).channel? = none ∧ exec (.split 0xFF) two = .next t :=
  ⟨_, rfl, rfl⟩
theorem witness_FrameOfScreate : ∃ t, exec (.screate 1 .lowFirst 0 4095) two = .next t ∧ (0#2) ≠ 1#2 := ⟨_, rfl, by decide⟩
theorem witness_FrameOfSadv : ∃ t, exec (.sadv 0) (withChan ⟨0xFFF, 2, 1, .second, .highFirst⟩ []) = .next t ∧ (1#2) ≠ 0#2 ∧
    (withChan ⟨0xFFF, 2, 1, .second, .highFirst⟩ []).chan? 0 = some ⟨0xFFF, 2, 1, .second, .highFirst⟩ :=
  ⟨_, rfl, by decide, by decide⟩
theorem witness_AssembledWordsAreCommands : assembleLine "SADV 3".toList = .word 0x9C000000 := by decide

end Sys2Proof.Tests
end

/-! ## Family 00_scope: the invariant (R5, R29, R40, R62) and the range of nibble results (R9, R61) -/

namespace Sys2Proof.Machine

/-! ### The invariant over the state's operations -/

namespace State.Inv
variable {s : State} (h : s.Inv)
include h

theorem withPort (evs : List HostEvent) : (s.withPort evs).Inv :=
  ⟨h.nch_pos, h.nch_le, h.channels, h.memory, h.statuses⟩

theorem srcRead (a : Addr) : (s.srcRead a).2.Inv :=
  ⟨h.nch_pos, h.nch_le, h.channels, h.memory, h.statuses⟩

theorem hostWrite (a : Addr) (b : Byte) : (s.hostWrite a b).Inv :=
  ⟨h.nch_pos, h.nch_le, h.channels, store_wf a b h.memory, h.statuses⟩

theorem respond (st : Status) (r : BitVec 28) : (s.respond st r).Inv where
  nch_pos := h.nch_pos
  nch_le := h.nch_le
  channels := h.channels
  memory := h.memory
  statuses w hw := by
    rcases List.mem_append.mp hw with hw | hw
    · exact h.statuses w hw
    · rw [List.mem_singleton.mp hw]
      exact legalStatus_responseWord st r

theorem setChan (c : ChanIx) {k : Channel} (hk : k.wf) : (s.setChan c k).Inv where
  nch_pos := by simpa using h.nch_pos
  nch_le := by simpa using h.nch_le
  channels k' hk' := by
    rcases List.mem_or_eq_of_mem_set hk' with hk' | rfl
    · exact h.channels k' hk'
    · exact hk
  memory := h.memory
  statuses := h.statuses

theorem resetBlock : s.resetBlock.Inv where
  nch_pos := by simpa using h.nch_pos
  nch_le := by simpa using h.nch_le
  channels k hk := by
    rw [List.eq_of_mem_replicate hk]
    exact reset_wf
  memory := h.memory
  statuses := h.statuses

/-- A channel found by its index is well formed (R29). -/
theorem chan_wf {c : ChanIx} {k : Channel} (hk : s.chan? c = some k) : k.wf :=
  h.channels k (List.mem_of_getElem? hk)

/-- A yielding SADV is a SRC read, a write of the advanced channel and a response. -/
theorem yieldNibble {c : ChanIx} {k : Channel} (hk : s.chan? c = some k) (he : k.idx ≠ k.len) :
    (yieldNibble c k s).Inv :=
  ((h.srcRead k.addr).setChan c (advance_wf (h.chan_wf hk) he)).respond _ _

/-! ### The invariant over commands, events and steps -/

theorem of_exec {i : Instr} {t : State} (ht : exec i s = .next t) : t.Inv := by
  obtain ⟨st, r, e⟩ | ⟨c, o, base, len, -, -, e⟩ | ⟨c, k, -, hk, he, e⟩ := exec_cases i s <;>
    rw [e] at ht <;> cases ht
  · exact h.respond st r
  · exact (h.setChan c (create_wf o base len)).respond _ _
  · exact h.yieldNibble hk he

theorem of_runEvent {e : HostEvent} {t : State} (ht : runEvent e s = .next t) : t.Inv := by
  obtain ⟨w, i, -, -, hr⟩ | ⟨w, why, -, -, hr⟩ | ⟨a, b, -, hr⟩ | ⟨-, hr⟩ := runEvent_cases e s <;>
    rw [hr] at ht
  case inl => exact h.of_exec ht
  all_goals cases ht
  · exact h.respond _ _
  · exact h.hostWrite a b
  · exact h.resetBlock

theorem of_step {t : State} (ht : step s = .next t) : t.Inv := by
  obtain ⟨-, hs⟩ | ⟨e, rest, -, hs⟩ := step_cases s <;> rw [hs] at ht
  · cases ht
    exact h
  · exact (h.withPort rest).of_runEvent ht

end State.Inv

/-- Settles O18: the invariant goes through the one event of the step, operation by operation. -/
theorem stepKeepsTheInvariant : Obligations.StepKeepsTheInvariant :=
  fun _ _ h ht => h.of_step ht

/-! ### The invariant after reset -/

theorem resetWith_inv {nch : Nat} (hpos : 1 ≤ nch) (hle : nch ≤ Config.maxNch) : (State.resetWith nch).Inv where
  nch_pos := by simpa using hpos
  nch_le := by simpa using hle
  channels k hk := by
    rw [List.eq_of_mem_replicate hk]
    exact reset_wf
  memory := ⟨List.Pairwise.nil, fun _ hx => absurd hx List.not_mem_nil⟩
  statuses _ hr := absurd hr List.not_mem_nil

/-- Settles O17; the NCH that the model chose (entry 1) is one of the legal ones. -/
theorem resetHoldsTheInvariant : Obligations.ResetHoldsTheInvariant :=
  ⟨fun _ hpos hle => resetWith_inv hpos hle, resetWith_inv (nch := Config.nch) (by decide) (by decide)⟩

/-! ### Nibble results -/

/-- `i`, executed in `s`, is answered with one response, which carries a nibble if its status is OK. -/
def AnswersNibble (i : Instr) (s : State) : Prop :=
  ∃ t st r, exec i s = .next t ∧ t.rsps = s.rsps ++ [responseWord st r] ∧ (st = .ok → ∃ n : Nibble, r = zext28 n)

theorem nval_answersNibble (v : Int28) (s : State) : AnswersNibble (.nval v) s := by
  cases h : outOfRange v with
  | false => exact ⟨_, _, _, exec_nval_inRange h s, rfl, fun _ => ⟨_, rfl⟩⟩
  | true => exact ⟨_, _, _, exec_nval_outOfRange h s, rfl, nofun⟩

theorem nmask_answersNibble (v : Int28) (s : State) : AnswersNibble (.nmask v) s :=
  ⟨_, _, _, exec_nmask v s, rfl, fun _ => ⟨_, rfl⟩⟩

theorem ntoi_answersNibble (n : Nibble) (s : State) : AnswersNibble (.ntoi n) s :=
  ⟨_, _, _, exec_ntoi n s, rfl, fun _ => ⟨n, rfl⟩⟩

theorem hexp_answersNibble (c : CodePoint) (s : State) : AnswersNibble (.hexp c) s := by
  cases h : hexNibble c with
  | none => exact ⟨_, _, _, exec_hexp_other h s, rfl, nofun⟩
  | some n => exact ⟨_, _, _, exec_hexp_digit h s, rfl, fun _ => ⟨n, rfl⟩⟩

theorem sadv_answersNibble (c : ChanIx) (s : State) : AnswersNibble (.sadv c) s := by
  rcases Nat.lt_or_ge c.toNat s.nch with hc | hc
  · obtain ⟨k, hk⟩ := chan_isSome hc
    by_cases he : k.idx = k.len
    · exact ⟨_, _, _, exec_sadv_exhausted hk he, rfl, nofun⟩
    · exact ⟨_, _, _, exec_sadv_yields hk he, yieldNibble_rsps c k s, fun _ => ⟨_, rfl⟩⟩
  · exact ⟨_, _, _, exec_sadv_absent hc, rfl, nofun⟩

theorem zext28_nibble_le (n : Nibble) : (zext28 n).toNat ≤ 15 := by
  rw [zext28_toNat (by decide)]
  exact Nat.le_of_lt_succ n.isLt

theorem AnswersNibble.resultOf_le {i : Instr} {s t : State} {rsp : Word} (h : AnswersNibble i s)
    (ht : exec i s = .next t) (hr : t.rsps = s.rsps ++ [rsp]) (hok : statusOf rsp = Status.ok.code) :
    (resultOf rsp).toNat ≤ 15 := by
  obtain ⟨u, st, r, hu, hur, hn⟩ := h
  obtain rfl : u = t := by simpa [hu] using ht
  obtain rfl : rsp = responseWord st r := by simpa [hur] using hr.symm
  rw [statusOf_responseWord] at hok
  obtain ⟨n, rfl⟩ := hn (code_injective hok)
  rw [resultOf_responseWord]
  exact zext28_nibble_le n

/-- Settles O41: each of the five commands answers OK only with a zero-extended nibble. -/
theorem nibbleResultsAreInRange : Obligations.NibbleResultsAreInRange := by
  intro i s t rsp ht hr hok hi
  have hn : AnswersNibble i s := by
    obtain ⟨v, rfl⟩ | ⟨v, rfl⟩ | ⟨n, rfl⟩ | ⟨c, rfl⟩ | ⟨c, rfl⟩ := hi
    · exact nval_answersNibble v s
    · exact nmask_answersNibble v s
    · exact ntoi_answersNibble n s
    · exact hexp_answersNibble c s
    · exact sadv_answersNibble c s
  exact hn.resultOf_le ht hr hok

end Sys2Proof.Machine

/-! ## Family 10_state: the channel invariant (R29), reset values and writers (R36), remaining nibbles (R30, R31), isolation
of channels (R33, R34, R185), non-OK responses (R35), no hidden state (R20, R23, R32), and the frames of the commands -/

namespace Sys2Proof

/-! ### Commands and their words (R63, R69) -/

/-- Every command has the fields its row says. -/
theorem encodingFields (i : Instr) : Laws.EncodingFields.Statement i := by
  cases i with
  | nval v => exact Laws.EncodingFields.nval v
  | nmask v => exact Laws.EncodingFields.nmask v
  | hexp c => exact Laws.EncodingFields.hexp c
  | ntoi n => exact Laws.EncodingFields.ntoi n
  | hexr n => exact Laws.EncodingFields.hexr n
  | split b => exact Laws.EncodingFields.split b
  | comb h l => exact Laws.EncodingFields.comb h l
  | screate c o base len => exact Laws.EncodingFields.screate c o base len
  | sadv c => exact Laws.EncodingFields.sadv c

theorem wellFormed_iff (nch : Nat) (i : Instr) :
    i.wellFormed nch = true ↔ ∀ c, i.channel? = some c → c.toNat < nch := by
  cases h : i.channel? with simp [Instr.wellFormed, h]

/-- A well-formed command comes back from its word. -/
theorem decode_encode {nch : Nat} {i : Instr} (h : i.wellFormed nch = true) : decode nch (encode i) = .command i := by
  obtain ⟨row, hrow, hmask, hread, hformat, hchannel⟩ := encodingFields i
  have hexists : ¬ (row.format.hasChannel = true ∧ nch ≤ (fieldCH2 (encode i)).toNat) := by
    rintro ⟨hf, hge⟩
    obtain ⟨c, hc⟩ := Option.isSome_iff_exists.mp (hformat ▸ hf)
    rw [hchannel c hc] at hge
    exact Nat.not_lt.mpr hge ((wellFormed_iff nch i).mp h c hc)
  rw [decode_of_row hrow, if_neg (not_not.mpr hmask), if_neg hexists, hread]

theorem toBit_ofBit (b : Bool) : (Order.ofBit b).toBit = BitVec.ofBool b := by cases b <;> rfl

/-- A word that decodes to a SCREATE is that SCREATE's word. -/
theorem eq_encode_of_decode_screate {nch : Nat} {w : Word} {c : ChanIx} {o : Order} {base : Addr} {len : Count}
    (h : decode nch w = .command (.screate c o base len)) : w = encode (.screate c o base len) := by
  obtain ⟨r, hr, -, hmask, -, hread⟩ := decode_command h
  fin_cases hr <;> cases hread
  obtain ⟨hop, hreserved⟩ := (mask_S w).mp hmask
  have hord : (fieldORD w).toBit.toNat = w.toNat / 2 ^ 25 % 2 := by
    rw [fieldORD, toBit_ofBit, BitVec.toNat_ofBool, BitVec.getLsbD, Nat.toNat_testBit]
  apply BitVec.eq_of_toNat_eq
  rw [encode_toNat]
  simp only [fieldOP, ← BitVec.toNat_inj, extract_toNat, BitVec.toNat_ofNat] at hop
  simp only [bit_toNat, decide_eq_false_iff_not] at hreserved
  simp only [fieldCH2, fieldBASE12, fieldLEN12, extract_toNat, hord]
  omega

/-- A word that decodes to an SADV is that SADV's word. -/
theorem eq_encode_of_decode_sadv {nch : Nat} {w : Word} {c : ChanIx}
    (h : decode nch w = .command (.sadv c)) : w = encode (.sadv c) := by
  obtain ⟨r, hr, -, hmask, -, hread⟩ := decode_command h
  fin_cases hr <;> cases hread
  obtain ⟨hop, hreserved⟩ := (mask_A w).mp hmask
  apply BitVec.eq_of_toNat_eq
  rw [encode_toNat]
  simp only [fieldOP, ← BitVec.toNat_inj, extract_toNat, BitVec.toNat_ofNat] at hop hreserved
  simp only [fieldCH2, extract_toNat]
  omega

/-! ### Words of the value unit and the codec (OP 1 to 7) -/

/-- The rows of OP 1 to 7 carry no channel (R63, R65). -/
theorem rowOfOpcode_noChannel : ∀ op : BitVec 4, 1 ≤ op.toNat → op.toNat ≤ 7 →
    (rowOfOpcode op).any (fun r => !r.format.hasChannel) = true := by decide

/-- The command read from a row names a channel exactly if the row's format carries one (R63). -/
theorem isSome_channel_read {r : OpRow} (hr : r ∈ opcodeTable) (w : Word) :
    (r.mnemonic.read w).channel?.isSome = r.format.hasChannel := by
  fin_cases hr <;> rfl

theorem channel_read_eq_none {r : OpRow} (hr : r ∈ opcodeTable) (hf : r.format.hasChannel = false) (w : Word) :
    (r.mnemonic.read w).channel? = none :=
  Option.isSome_eq_false_iff.mp ((isSome_channel_read hr w).trans hf) |> Option.isNone_iff_eq_none.mp

/-- A word with OP 1 to 7 decodes without regard to NCH, to ILLEGAL or to a command that names no channel. -/
theorem decode_noChannel {w : Word} (h1 : 1 ≤ (fieldOP w).toNat) (h7 : (fieldOP w).toNat ≤ 7) :
    (∃ why, ∀ nch, decode nch w = .illegal why) ∨ ∃ i, i.channel? = none ∧ ∀ nch, decode nch w = .command i := by
  obtain ⟨r, hr, hf⟩ := (Option.any_eq_true _ _).mp (rowOfOpcode_noChannel _ h1 h7)
  rw [Bool.not_eq_true'] at hf
  have hrow : findRow w = some r := findRow_of_opcode hr rfl
  by_cases hmask : w &&& r.maskBits = r.matchBits
  · exact .inr ⟨_, channel_read_eq_none (List.mem_of_find?_eq_some hrow) hf w, fun nch => by
      simp [decode_of_row hrow, hmask, hf]⟩
  · exact .inl ⟨_, fun nch => by rw [decode_of_row hrow, if_pos hmask]⟩

end Sys2Proof

namespace Sys2Proof.Machine

/-! ### What the operations do to one channel -/

section advance
variable (k : Channel)
@[simp] theorem advance_base : k.advance.base = k.base := by cases h : k.pos <;> simp [Channel.advance, h]
@[simp] theorem advance_len : k.advance.len = k.len := by cases h : k.pos <;> simp [Channel.advance, h]
@[simp] theorem advance_ord : k.advance.ord = k.ord := by cases h : k.pos <;> simp [Channel.advance, h]
end advance

/-- IDX moves after the second nibble only (R26, R142). -/
theorem advance_idx_of_first {k : Channel} (h : k.pos = .first) : k.advance.idx = k.idx := by
  simp [Channel.advance, h]

/-- A well-formed channel that is not exhausted has IDX < LEN (R29, R30). -/
theorem idx_lt_len {k : Channel} (h : k.wf) (he : k.idx ≠ k.len) : k.idx < k.len :=
  BitVec.lt_of_le_ne h.1 he

theorem exec_screate_chan {c : ChanIx} {o : Order} {base : Addr} {len : Count} {s t : State} (hc : c.toNat < s.nch)
    (ht : exec (.screate c o base len) s = .next t) : t.chan? c = some (Channel.create o base len) := by
  rw [exec_screate_present hc] at ht
  cases ht
  rw [respond_chan, setChan_chan_self hc]

/-- What an SADV leaves in its own channel: all of it if it is exhausted, else the cursor one nibble further. -/
theorem exec_sadv_chan {c : ChanIx} {s t : State} {k : Channel} (hk : s.chan? c = some k)
    (ht : exec (.sadv c) s = .next t) :
    (k.idx = k.len ∧ t.chan? c = some k) ∨ (k.idx ≠ k.len ∧ t.chan? c = some k.advance) := by
  by_cases he : k.idx = k.len
  · rw [exec_sadv_exhausted hk he] at ht
    cases ht
    exact .inl ⟨he, hk⟩
  · rw [exec_sadv_yields hk he] at ht
    cases ht
    exact .inr ⟨he, yieldNibble_chan_self (chan_some_lt hk) k⟩

/-- A command leaves every channel that it does not name as it was (R33). -/
theorem exec_chan_other {i : Instr} {s t : State} {d : ChanIx} (ht : exec i s = .next t) (hd : i.channel? ≠ some d) :
    t.chan? d = s.chan? d := by
  obtain ⟨st, r, e⟩ | ⟨c, o, base, len, rfl, -, e⟩ | ⟨c, k, rfl, -, -, e⟩ := exec_cases i s <;>
    rw [e] at ht <;> cases ht
  · rfl
  · exact setChan_chan_other s (fun h => hd (congrArg some h.symm)) _
  · exact yieldNibble_chan_other s (fun h => hd (congrArg some h.symm)) k

/-! ### Every channel is well formed (R29) -/

/-- Every channel of `s` satisfies R29. -/
def State.ChannelsWf (s : State) : Prop := ∀ k ∈ s.ch, k.wf

theorem replicate_reset_wf (n : Nat) : ∀ k ∈ List.replicate n Channel.reset, k.wf := fun _ hk =>
  List.eq_of_mem_replicate hk ▸ reset_wf

namespace State.ChannelsWf
variable {s t : State} (h : s.ChannelsWf)
include h

theorem setChan (c : ChanIx) {k : Channel} (hk : k.wf) : (s.setChan c k).ChannelsWf := fun k' hk' => by
  rcases List.mem_or_eq_of_mem_set hk' with hk' | rfl
  · exact h k' hk'
  · exact hk

theorem of_exec {i : Instr} (ht : exec i s = .next t) : t.ChannelsWf := by
  obtain ⟨st, r, e⟩ | ⟨c, o, base, len, -, -, e⟩ | ⟨c, k, -, hk, he, e⟩ := exec_cases i s <;>
    rw [e] at ht <;> cases ht
  · exact h
  · exact h.setChan c (create_wf o base len)
  · exact h.setChan c (advance_wf (h k (List.mem_of_getElem? hk)) he)

theorem of_runEvent {e : HostEvent} (ht : runEvent e s = .next t) : t.ChannelsWf := by
  obtain ⟨w, i, -, -, hr⟩ | ⟨w, why, -, -, hr⟩ | ⟨a, b, -, hr⟩ | ⟨-, hr⟩ := runEvent_cases e s <;>
    rw [hr] at ht
  case inl => exact h.of_exec ht
  all_goals cases ht
  · exact h
  · exact h
  · exact replicate_reset_wf s.nch

theorem of_step (ht : step s = .next t) : t.ChannelsWf := by
  obtain ⟨-, hs⟩ | ⟨e, rest, -, hs⟩ := step_cases s <;> rw [hs] at ht
  · cases ht
    exact h
  · exact of_runEvent (s := s.withPort rest) h ht

end State.ChannelsWf

/-- What every step keeps holds along every run, whatever is left on the port. -/
theorem runSteps_invariant {P : State → Prop} (hstep : ∀ s t, P s → step s = .next t → P t) {n : Nat} {s t : State}
    (hs : P s) (ht : runSteps n s = .next t) : P t := by
  induction n generalizing s with
  | zero =>
    cases ht
    exact hs
  | succ n ih =>
    obtain ⟨u, hu⟩ := step_next s
    rw [runSteps_succ hu] at ht
    exact ih (hstep s u hs hu) ht

/-- Settles O19: R29 holds at reset and every step keeps it; an SADV that moves its cursor is not at the end. -/
theorem everyChannelAlwaysWellFormed : Obligations.EveryChannelAlwaysWellFormed := by
  refine ⟨fun nch n evs t ht => ?_, fun s t hs ht => State.ChannelsWf.of_step hs ht, ?_, ?_⟩
  · have hreset : ((State.resetWith nch).withPort evs).ChannelsWf := replicate_reset_wf nch
    exact runSteps_invariant (fun _ _ hs hst => hs.of_step hst) hreset ht
  · intro c o base len s t k hc ht hk
    rw [exec_screate_chan hc ht] at hk
    cases hk
    exact create_wf o base len
  · intro c s t k k' hwf hk ht hk'
    obtain ⟨-, e⟩ | ⟨he, e⟩ := exec_sadv_chan hk ht <;> rw [e] at hk' <;> cases hk'
    · exact ⟨fun h => absurd rfl h, fun h => absurd rfl h⟩
    · have hlt := idx_lt_len hwf he
      refine ⟨fun h => ⟨hlt, ?_⟩, fun _ => hlt⟩
      cases hp : k.pos with
      | first => exact absurd (advance_idx_of_first hp) h
      | second => rfl

/-! ### Reset values and writers of the channel fields (R36) -/

/-- The reset values of R24 to R28, and that a channel is exhausted with them (R30). -/
theorem reset_values {n : Nat} {k : Channel} (hk : k ∈ List.replicate n Channel.reset) :
    k.base = 0x000 ∧ k.len = 0x000 ∧ k.idx = 0x000 ∧ k.pos = .first ∧ k.ord = .highFirst ∧ k.isExhausted = true := by
  rw [List.eq_of_mem_replicate hk]
  decide

/-- Which commands change a channel, and how: a SCREATE on it, or an SADV on it, which moves its cursor. -/
theorem exec_chan_changes {i : Instr} {s t : State} {d : ChanIx} {k k' : Channel} (ht : exec i s = .next t)
    (hk : s.chan? d = some k) (hk' : t.chan? d = some k') :
    k' = k ∨ (∃ o base len, i = .screate d o base len) ∨ (i = .sadv d ∧ k' = k.advance) := by
  by_cases hd : i.channel? = some d
  · cases i with
    | screate c o base len => cases hd; exact .inr (.inl ⟨o, base, len, rfl⟩)
    | sadv c =>
      cases hd
      obtain ⟨-, e⟩ | ⟨-, e⟩ := exec_sadv_chan hk ht <;> rw [e] at hk' <;> cases hk'
      · exact .inl rfl
      · exact .inr (.inr ⟨rfl, rfl⟩)
    | _ => cases hd
  · rw [exec_chan_other ht hd, hk] at hk'
    cases hk'
    exact .inl rfl

/-- The same of a command word. -/
theorem step_chan_changes {s t : State} {w : Word} {rest : List HostEvent} {d : ChanIx} {k k' : Channel}
    (hp : s.port = .command w :: rest) (ht : step s = .next t) (hk : s.chan? d = some k) (hk' : t.chan? d = some k') :
    k' = k ∨ (∃ o base len, w = encode (.screate d o base len)) ∨ (w = encode (.sadv d) ∧ k' = k.advance) := by
  rw [step_cons hp] at ht
  cases hdec : decode (s.withPort rest).nch w with
  | command i =>
    rw [runEvent_command hdec] at ht
    obtain h | ⟨o, base, len, rfl⟩ | ⟨rfl, h⟩ := exec_chan_changes ht hk hk'
    · exact .inl h
    · exact .inr (.inl ⟨o, base, len, eq_encode_of_decode_screate hdec⟩)
    · exact .inr (.inr ⟨eq_encode_of_decode_sadv hdec, h⟩)
  | illegal why =>
    rw [runEvent_illegal hdec] at ht
    cases ht
    exact .inl (Option.some.inj (hk'.symm.trans hk))

/-- Settles O15: a channel that a word changes is the one its SCREATE or its SADV names. -/
theorem channelFieldsResetValuesAndWriters : Obligations.ChannelFieldsResetValuesAndWriters := by
  refine ⟨fun nch => ⟨resetWith_nch nch, fun k hk => reset_values hk⟩, fun s rest hp => ?_, ?_⟩
  · exact ⟨_, (step_cons hp).trans (runEvent_reset _), by simp, fun k hk => reset_values hk, rfl, rfl, rfl, rfl⟩
  · intro s t w rest d k k' hp ht hk hk'
    obtain rfl | h | ⟨h, rfl⟩ := step_chan_changes hp ht hk hk'
    · exact ⟨fun hne => by simp at hne, fun hne => by simp at hne⟩
    · exact ⟨fun _ => h, fun _ => .inr h⟩
    · exact ⟨fun hne => by simp at hne, fun _ => .inl h⟩

/-! ### The nibbles left in a channel (R30, R31) -/

/-- A well-formed channel is somewhere along its own sequence. -/
theorem exists_eq_cursorAt {k : Channel} (h : k.wf) :
    ∃ m ≤ 2 * k.len.toNat, k = cursorAt k.ord k.base k.len m := by
  obtain ⟨hle, hlt⟩ := h
  obtain ⟨base, len, idx, pos, ord⟩ := k
  simp only [BitVec.le_def] at hle
  cases pos with
  | first => exact ⟨2 * idx.toNat, Nat.mul_le_mul_left 2 hle, by simp [cursorAt]⟩
  | second =>
    have hidx : idx.toNat < len.toNat := BitVec.lt_def.mp (hlt rfl)
    have hhalf : (2 * idx.toNat + 1) / 2 = idx.toNat := by omega
    refine ⟨2 * idx.toNat + 1, ?_, by simp [cursorAt, hhalf]⟩
    show 2 * idx.toNat + 1 ≤ 2 * len.toNat
    omega

theorem cursorAt_remaining (o : Order) (base : Addr) (len : Count) {m : Nat} (hm : m ≤ 2 * len.toNat) :
    (cursorAt o base len m).remaining = 2 * len.toNat - m := by
  have := len.isLt
  have hidx : (cursorAt o base len m).idx.toNat = m / 2 := by
    simp only [cursorAt, BitVec.toNat_ofNat]
    omega
  have hpos : (cursorAt o base len m).pos.toNat = m % 2 := by
    rcases Nat.mod_two_eq_zero_or_one m with h | h <;> simp [cursorAt, SubPos.toNat, h]
  rw [Channel.remaining, hidx, hpos]
  show 2 * (len.toNat - m / 2) - m % 2 = _
  omega

theorem remaining_eq_zero_iff {k : Channel} (h : k.wf) : k.remaining = 0 ↔ k.idx = k.len := by
  obtain ⟨m, hm, hk⟩ := exists_eq_cursorAt h
  rw [hk, cursorAt_remaining _ _ _ hm, cursorAt_exhausted_iff _ _ _ hm]
  omega

/-- An exhausted channel is at the first position: POS = 1 would need IDX < LEN (R29). -/
theorem pos_eq_first_of_exhausted {k : Channel} (h : k.wf) (he : k.idx = k.len) : k.pos = .first := by
  cases hp : k.pos with
  | first => rfl
  | second => exact absurd he (BitVec.ne_of_lt (h.2 hp))

/-- Past the end every response is END (R144). -/
theorem sequenceResponse_of_ge (s : State) (o : Order) (base : Addr) {len : Count} {m : Nat} (hm : 2 * len.toNat ≤ m) :
    s.sequenceResponse o base len m = 0x10000000 := if_neg (Nat.not_lt.mpr hm)

/-- Before the end every response is OK (R144). -/
theorem statusOf_sequenceResponse (s : State) (o : Order) (base : Addr) {len : Count} {m : Nat} (hm : m < 2 * len.toNat) :
    statusOf (s.sequenceResponse o base len m) = 0 := by
  rw [State.sequenceResponse, if_pos hm, ← okNibble_word, statusOf_responseWord]
  rfl

/-- One SADV word on a channel that stands at `m`, or at its end if `m` is past it. -/
theorem runEvent_sadv_cursor {s : State} {c : ChanIx} {o : Order} {base : Addr} {len : Count} {m : Nat}
    (h : s.chan? c = some (cursorAt o base len (min m (2 * len.toNat)))) :
    ∃ t, runEvent (.command (encode (.sadv c))) s = .next t ∧ t.rsps = s.rsps ++ [s.sequenceResponse o base len m] ∧
      t.src = s.src ∧ t.port = s.port ∧ t.ch = s.ch.set c.toNat (cursorAt o base len (min (m + 1) (2 * len.toNat))) := by
  have hdec : decode s.nch (encode (.sadv c)) = .command (.sadv c) :=
    decode_encode ((wellFormed_iff _ _).mpr (fun d hd => by cases hd; exact chan_some_lt h))
  obtain ⟨t, ht, hrsps, hsrc, hport, hch⟩ := exec_sadv_cursor h (Nat.min_le_right _ _)
  refine ⟨t, (runEvent_command hdec).trans ht, ?_, hsrc, hport, ?_⟩
  · rcases Nat.le_total m (2 * len.toNat) with hm | hm
    · rw [hrsps, Nat.min_eq_left hm]
    · rw [hrsps, Nat.min_eq_right hm, sequenceResponse_of_ge s o base le_rfl, sequenceResponse_of_ge s o base hm]
  · rw [hch, show min (min m (2 * len.toNat) + 1) (2 * len.toNat) = min (m + 1) (2 * len.toNat) by omega]

/-- `n` SADVs in a row on a channel that stands at `m`: the responses number `m` to `m + n - 1` of its sequence (R144). -/
theorem runSteps_sadv_cursor {s : State} {c : ChanIx} {o : Order} {base : Addr} {len : Count} {m : Nat} (n : Nat)
    (rest : List HostEvent) (h : s.chan? c = some (cursorAt o base len (min m (2 * len.toNat)))) :
    ∃ t, runSteps n (s.withPort (List.replicate n (.command (encode (.sadv c))) ++ rest)) = .next t ∧
      t.port = rest ∧ t.src = s.src ∧ t.ch = s.ch.set c.toNat (cursorAt o base len (min (m + n) (2 * len.toNat))) ∧
      t.rsps = s.rsps ++ (List.range' m n).map (s.sequenceResponse o base len) := by
  induction n generalizing s m with
  | zero => exact ⟨s.withPort rest, rfl, rfl, rfl, (set_getElem?_self h).symm, by simp⟩
  | succ n ih =>
    let evs := List.replicate n (HostEvent.command (encode (.sadv c))) ++ rest
    obtain ⟨u, hu, hursps, husrc, huport, huch⟩ := runEvent_sadv_cursor (s := s.withPort evs) h
    have huchan : u.chan? c = some (cursorAt o base len (min (m + 1) (2 * len.toNat))) := by
      rw [State.chan?, huch]
      exact List.getElem?_set_self (chan_some_lt h)
    obtain ⟨t, ht, hport, hsrc, hch, hrsps⟩ := ih huchan
    have hself : u.withPort evs = u := by rw [← withPort_port s evs, ← huport, withPort_self]
    have hseq : u.sequenceResponse o base len = s.sequenceResponse o base len := funext fun j =>
      sequenceResponse_congr (fun _ _ => srcByte_congr husrc _) o j
    refine ⟨t, ?_, hport, hsrc.trans husrc, ?_, ?_⟩
    · rw [List.replicate_succ, List.cons_append, runSteps_cons hu, ← hself]
      exact ht
    · rw [hch, huch, List.set_set, withPort_ch, Nat.add_assoc, Nat.add_comm 1]
    · rw [hrsps, hseq, hursps, List.range'_succ, List.map_cons, List.append_assoc]
      rfl

/-- The responses from number `m` on are OK up to the end of the sequence, then END. -/
theorem map_sequenceResponse_range' (s : State) (o : Order) (base : Addr) (len : Count) {m : Nat} (n : Nat)
    (hm : m ≤ 2 * len.toNat) :
    ∃ oks : List Word, oks.length = min n (2 * len.toNat - m) ∧ (∀ r ∈ oks, statusOf r = 0) ∧
      (List.range' m n).map (s.sequenceResponse o base len) =
        oks ++ List.replicate (n - (2 * len.toNat - m)) 0x10000000 := by
  let a := min n (2 * len.toNat - m)
  have hsplit : List.range' m n = List.range' m a ++ List.range' (m + a) (n - (2 * len.toNat - m)) := by
    rw [List.range'_append_1]
    congr 1
    omega
  have hend : (List.range' (m + a) (n - (2 * len.toNat - m))).map (s.sequenceResponse o base len) =
      List.replicate (n - (2 * len.toNat - m)) 0x10000000 := by
    refine List.eq_replicate_iff.mpr ⟨by simp, fun r hr => ?_⟩
    obtain ⟨j, hj, rfl⟩ := List.mem_map.mp hr
    rw [List.mem_range'_1] at hj
    exact sequenceResponse_of_ge s o base (by omega)
  refine ⟨(List.range' m a).map (s.sequenceResponse o base len), by simp [a], fun r hr => ?_, ?_⟩
  · obtain ⟨j, hj, rfl⟩ := List.mem_map.mp hr
    rw [List.mem_range'_1] at hj
    exact statusOf_sequenceResponse s o base (by omega)
  · rw [hsplit, List.map_append, hend]

/-- Settles O32: a well-formed channel is a cursor along its sequence, and what remains is the distance to the end. -/
theorem remainingCountsTheNibblesLeft : Obligations.RemainingCountsTheNibblesLeft := by
  refine ⟨fun k hwf => ⟨remaining_eq_zero_iff hwf, pos_eq_first_of_exhausted hwf⟩, ?_, ?_⟩
  · intro c o base len s t hc ht
    refine ⟨_, exec_screate_chan hc ht, ?_⟩
    rw [create_eq_cursorAt, cursorAt_remaining o base len (Nat.zero_le _), Nat.sub_zero]
  · intro c s k n rest hk hwf
    obtain ⟨m, hm, hcur⟩ := exists_eq_cursorAt hwf
    have hrem : k.remaining = 2 * k.len.toNat - m := by rw [hcur]; exact cursorAt_remaining _ _ _ hm
    have hat : s.chan? c = some (cursorAt k.ord k.base k.len (min m (2 * k.len.toNat))) := by
      rw [Nat.min_eq_left hm, ← hcur, hk]
    obtain ⟨t, ht, hport, -, hch, hrsps⟩ := runSteps_sadv_cursor n rest hat
    obtain ⟨oks, hlen, hok, hmap⟩ := map_sequenceResponse_range' s k.ord k.base k.len n hm
    have hchan : t.chan? c = some (cursorAt k.ord k.base k.len (min (m + n) (2 * k.len.toNat))) := by
      rw [State.chan?, hch]
      exact List.getElem?_set_self (chan_some_lt hk)
    refine ⟨t, _, oks, ht, hport, hchan, ?_, ?_, hok, ?_⟩
    · rw [cursorAt_remaining _ _ _ (Nat.min_le_right _ _), hrem]
      omega
    · rw [hlen, hrem]
    · rw [hrsps, hmap, hrem, List.append_assoc]

/-! ### Commands without a channel (R34) -/

/-- A command that names no channel gives one response, the same in every state, and does nothing else. -/
theorem exec_noChannel {i : Instr} (h : i.channel? = none) : ∃ st r, ∀ s, exec i s = .next (s.respond st r) := by
  cases i with
  | nval v =>
    cases hv : outOfRange v with
    | false => exact ⟨_, _, exec_nval_inRange hv⟩
    | true => exact ⟨_, _, exec_nval_outOfRange hv⟩
  | nmask v => exact ⟨_, _, exec_nmask v⟩
  | hexp c =>
    cases hc : hexNibble c with
    | none => exact ⟨_, _, exec_hexp_other hc⟩
    | some n => exact ⟨_, _, exec_hexp_digit hc⟩
  | ntoi n => exact ⟨_, _, exec_ntoi n⟩
  | hexr n => exact ⟨_, _, exec_hexr n⟩
  | split b => exact ⟨_, _, exec_split b⟩
  | comb hi lo => exact ⟨_, _, exec_comb hi lo⟩
  | screate c o base len => cases h
  | sadv c => cases h

/-- Settles O38: a word with OP 1 to 7 decodes in the same way on every block. -/
theorem valueAndCodecCommandsArePure : Obligations.ValueAndCodecCommandsArePure := by
  refine ⟨fun i hi => ?_, fun w h1 h7 => ?_⟩
  · obtain ⟨st, r, h⟩ := exec_noChannel hi
    exact ⟨responseWord st r, h⟩
  · obtain ⟨why, hdec⟩ | ⟨i, hi, hdec⟩ := decode_noChannel h1 h7
    · exact ⟨responseWord .illegal 0, fun s rest hp => (step_cons hp).trans (runEvent_illegal (hdec _))⟩
    · obtain ⟨st, r, h⟩ := exec_noChannel hi
      exact ⟨responseWord st r, fun s rest hp =>
        (step_cons hp).trans ((runEvent_command (hdec _)).trans (h _))⟩

/-! ### Frames -/

/-- Settles O47: these commands only respond. -/
theorem frameOfValueAndCodecCommands : Obligations.FrameOfValueAndCodecCommands := by
  intro i s t hi ht
  obtain ⟨st, r, h⟩ := exec_noChannel hi
  rw [h] at ht
  cases ht
  exact ⟨respond_chan s st r, rfl, respond_srcByte s st r, rfl, rfl, rfl⟩

theorem exec_screate_reads {c : ChanIx} {o : Order} {base : Addr} {len : Count} {s t : State}
    (ht : exec (.screate c o base len) s = .next t) : t.reads = s.reads := by
  rcases Nat.lt_or_ge c.toNat s.nch with hc | hc
  · rw [exec_screate_present hc] at ht
    cases ht
    rfl
  · rw [exec_screate_absent hc] at ht
    cases ht
    rfl

/-- Settles O48: what every command leaves alone, and that a SCREATE reads no SRC byte. -/
theorem frameOfScreate : Obligations.FrameOfScreate := by
  intro c o base len s t ht
  obtain ⟨hsrc, hport, hnch, -, -⟩ := exec_frame ht
  exact ⟨fun d hd => exec_chan_other ht (fun h => hd (Option.some.inj h).symm), hnch, srcByte_congr hsrc, hsrc, hport,
    exec_screate_reads ht⟩

/-- Settles O49: moving the cursor keeps BASE, LEN and ORD. -/
theorem frameOfSadv : Obligations.FrameOfSadv := by
  intro c s t ht
  obtain ⟨hsrc, hport, hnch, -, -⟩ := exec_frame ht
  refine ⟨fun d hd => exec_chan_other ht (fun h => hd (Option.some.inj h).symm), fun k hk => ?_, hnch,
    srcByte_congr hsrc, hsrc, hport⟩
  obtain ⟨-, e⟩ | ⟨-, e⟩ := exec_sadv_chan hk ht
  · exact ⟨k, e, rfl, rfl, rfl⟩
  · exact ⟨k.advance, e, advance_base k, advance_len k, advance_ord k⟩

/-! ### A status other than OK (R35, R177) -/

/-- Settles O39: a SCREATE that writes and an SADV that yields answer OK, and everything else only responds. -/
theorem nonOkStatusChangesNothing : Obligations.NonOkStatusChangesNothing := by
  intro s t w rsp rest hp ht hrsps hst
  rw [step_cons hp] at ht
  have honly : ∃ st r, t = (s.withPort rest).respond st r := by
    cases hdec : decode (s.withPort rest).nch w with
    | illegal why =>
      rw [runEvent_illegal hdec] at ht
      cases ht
      exact ⟨_, _, rfl⟩
    | command i =>
      rw [runEvent_command hdec] at ht
      obtain ⟨st, r, e⟩ | ⟨c, o, base, len, -, -, e⟩ | ⟨c, k, -, -, -, e⟩ := exec_cases i (s.withPort rest) <;>
        rw [e] at ht <;> cases ht
      · exact ⟨st, r, rfl⟩
      all_goals
        obtain rfl := List.singleton_inj.mp (List.append_cancel_left hrsps)
        exact absurd (statusOf_responseWord _ _) hst
  obtain ⟨st, r, rfl⟩ := honly
  rw [← hrsps]
  rfl

/-! ### The effect of a command (R33, R185) -/

/-- All a command does: its response, the addresses it reads, and the channel it writes, if it writes one. -/
structure Effect where
  rsp : Word
  reads : List Addr
  write : Option (ChanIx × Channel)

/-- The channel register file after the effect. -/
def Effect.onChannels (e : Effect) (ch : List Channel) : List Channel :=
  match e.write with
  | none => ch
  | some (c, k) => ch.set c.toNat k

/-- The state after the effect. -/
def Effect.apply (e : Effect) (s : State) : State :=
  { s with ch := e.onChannels s.ch, rsps := s.rsps ++ [e.rsp], reads := s.reads ++ e.reads }

/-- The effect writes no channel but the one that `i` names. -/
def Effect.Within (e : Effect) (i : Instr) : Prop := ∀ c k, e.write = some (c, k) → i.channel? = some c

section apply
variable (e : Effect) (s : State)
@[simp] theorem apply_ch : (e.apply s).ch = e.onChannels s.ch := rfl
@[simp] theorem apply_src : (e.apply s).src = s.src := rfl
@[simp] theorem apply_rsps : (e.apply s).rsps = s.rsps ++ [e.rsp] := rfl
@[simp] theorem apply_reads : (e.apply s).reads = s.reads ++ e.reads := rfl
@[simp] theorem apply_srcByte (a : Addr) : (e.apply s).srcByte a = s.srcByte a := rfl
end apply

theorem onChannels_none {e : Effect} (h : e.write = none) (ch : List Channel) : e.onChannels ch = ch := by
  simp [Effect.onChannels, h]

theorem onChannels_some {e : Effect} {c : ChanIx} {k : Channel} (h : e.write = some (c, k)) (ch : List Channel) :
    e.onChannels ch = ch.set c.toNat k := by
  simp [Effect.onChannels, h]

@[simp] theorem apply_nch (e : Effect) (s : State) : (e.apply s).nch = s.nch := by
  cases h : e.write with
  | none => simp [State.nch, onChannels_none h]
  | some p =>
    obtain ⟨c, k⟩ := p
    simp [State.nch, onChannels_some h]

/-- Only responding is an effect. -/
theorem respond_eq_apply (s : State) (st : Status) (r : BitVec 28) :
    s.respond st r = (Effect.mk (responseWord st r) [] none).apply s := by
  simp [State.respond, Effect.apply, Effect.onChannels]

/-- Creating a sequence is an effect. -/
theorem create_eq_apply (s : State) (c : ChanIx) (k : Channel) :
    (s.setChan c k).respond .ok 0 = (Effect.mk (responseWord .ok 0) [] (some (c, k))).apply s := by
  simp [State.respond, State.setChan, Effect.apply, Effect.onChannels]

/-- Yielding a nibble is an effect, which depends on the channel and on the byte it reads. -/
theorem yieldNibble_eq_apply (s : State) (c : ChanIx) (k : Channel) :
    yieldNibble c k s = (Effect.mk (responseWord .ok (zext28 (extract (s.srcByte k.addr) (muxSelect k.pos k.ord))))
      [k.addr] (some (c, k.advance))).apply s := rfl

/-- What a command can see of a state: NCH, the channel it names, and SRC (R32, R33). -/
structure AgreeFor (i : Instr) (s t : State) : Prop where
  nch : s.nch = t.nch
  chan : ∀ c, i.channel? = some c → s.chan? c = t.chan? c
  srcByte : ∀ a, s.srcByte a = t.srcByte a

theorem AgreeFor.refl (i : Instr) (s : State) : AgreeFor i s s := ⟨rfl, fun _ _ => rfl, fun _ => rfl⟩

/-- `i` has one and the same effect on `s` and on `t`, within the channel it names. -/
def SameEffect (i : Instr) (s t : State) : Prop :=
  ∃ e : Effect, e.Within i ∧ exec i s = .next (e.apply s) ∧ exec i t = .next (e.apply t)

theorem sameEffect_of_respond {i : Instr} {s t : State} {st : Status} {r : BitVec 28}
    (hs : exec i s = .next (s.respond st r)) (ht : exec i t = .next (t.respond st r)) : SameEffect i s t := by
  rw [respond_eq_apply] at hs ht
  exact ⟨_, (fun _ _ hw => by cases hw), hs, ht⟩

theorem screate_sameEffect {c : ChanIx} {s t : State} (hnch : s.nch = t.nch) (o : Order) (base : Addr) (len : Count) :
    SameEffect (.screate c o base len) s t := by
  rcases Nat.lt_or_ge c.toNat s.nch with hc | hc
  · have hs := exec_screate_present hc o base len
    have ht := exec_screate_present (hnch ▸ hc) o base len
    rw [create_eq_apply] at hs ht
    exact ⟨_, fun _ _ hw => by cases hw; rfl, hs, ht⟩
  · exact sameEffect_of_respond (exec_screate_absent hc o base len) (exec_screate_absent (hnch ▸ hc) o base len)

theorem sadv_sameEffect {c : ChanIx} {s t : State} (hnch : s.nch = t.nch) (hchan : s.chan? c = t.chan? c)
    (hsrc : ∀ a, s.srcByte a = t.srcByte a) : SameEffect (.sadv c) s t := by
  rcases Nat.lt_or_ge c.toNat s.nch with hc | hc
  · obtain ⟨k, hk⟩ := chan_isSome hc
    have hk' : t.chan? c = some k := hchan ▸ hk
    by_cases he : k.idx = k.len
    · exact sameEffect_of_respond (exec_sadv_exhausted hk he) (exec_sadv_exhausted hk' he)
    · have hs := exec_sadv_yields hk he
      have ht := exec_sadv_yields hk' he
      rw [yieldNibble_eq_apply, hsrc] at hs
      exact ⟨_, fun _ _ hw => by cases hw; rfl, hs, ht⟩
  · exact sameEffect_of_respond (exec_sadv_absent hc) (exec_sadv_absent (hnch ▸ hc))

/-- A command has the same effect on states that agree on what it can see. -/
theorem AgreeFor.sameEffect {i : Instr} {s t : State} (h : AgreeFor i s t) : SameEffect i s t := by
  cases hi : i.channel? with
  | none =>
    obtain ⟨st, r, hr⟩ := exec_noChannel hi
    exact sameEffect_of_respond (hr s) (hr t)
  | some c =>
    cases i with
    | screate d o base len => exact screate_sameEffect h.nch o base len
    | sadv d => exact sadv_sameEffect h.nch (h.chan d rfl) h.srcByte
    | _ => cases hi

/-- An effect leaves equal channels equal. -/
theorem apply_chan_congr (e : Effect) {s t : State} {c : ChanIx} (hnch : s.nch = t.nch) (h : s.chan? c = t.chan? c) :
    (e.apply s).chan? c = (e.apply t).chan? c := by
  simp only [State.chan?, State.nch, apply_ch] at *
  cases hw : e.write with
  | none => rw [onChannels_none hw, onChannels_none hw, h]
  | some p =>
    obtain ⟨d, k⟩ := p
    rw [onChannels_some hw, onChannels_some hw, List.getElem?_set, List.getElem?_set, hnch, h]

/-- Settles O36: the frame of `exec_chan_other`, and one effect on both states. -/
theorem commandTouchesOnlyItsChannel : Obligations.CommandTouchesOnlyItsChannel := by
  intro i c hi
  refine ⟨fun s t ht d hd => exec_chan_other ht (fun h => hd (Option.some.inj (h.symm.trans hi))), ?_⟩
  intro s1 s2 hnch hchan hsrc
  have hagree : AgreeFor i s1 s2 :=
    ⟨hnch, fun d hd => by obtain rfl := Option.some.inj (hi.symm.trans hd); exact hchan, hsrc⟩
  obtain ⟨e, -, h1, h2⟩ := hagree.sameEffect
  exact ⟨_, _, e.rsp, e.reads, h1, h2, rfl, rfl, rfl, rfl, apply_chan_congr e hnch hchan⟩

/-- A command sees nothing of what another does to another channel. -/
theorem agreeFor_apply {i j : Instr} {c d : ChanIx} {s : State} {e : Effect} (hi : i.channel? = some c)
    (hj : j.channel? = some d) (hcd : c ≠ d) (hs : exec j s = .next (e.apply s)) : AgreeFor i s (e.apply s) where
  nch := (apply_nch e s).symm
  chan c' hc' := by
    obtain rfl := Option.some.inj (hi.symm.trans hc')
    exact (exec_chan_other hs (fun h => hcd (Option.some.inj (h.symm.trans hj)))).symm
  srcByte _ := rfl

/-- Effects within different channels commute on the channel register file. -/
theorem onChannels_comm {i j : Instr} {c d : ChanIx} {e f : Effect} (hi : i.channel? = some c) (hj : j.channel? = some d)
    (hcd : c ≠ d) (he : e.Within i) (hf : f.Within j) (ch : List Channel) :
    f.onChannels (e.onChannels ch) = e.onChannels (f.onChannels ch) := by
  cases hew : e.write with
  | none => simp only [onChannels_none hew]
  | some p =>
    cases hfw : f.write with
    | none => simp only [onChannels_none hfw]
    | some q =>
      obtain ⟨c', k⟩ := p
      obtain ⟨d', l⟩ := q
      obtain rfl := Option.some.inj (hi.symm.trans (he _ _ hew))
      obtain rfl := Option.some.inj (hj.symm.trans (hf _ _ hfw))
      simp only [onChannels_some hew, onChannels_some hfw]
      exact List.set_comm _ _ (fun h => hcd (BitVec.eq_of_toNat_eq h))

/-- Settles O37: each command has one effect, before and after the other, and the two effects commute. -/
theorem commandsOnDifferentChannelsCommute : Obligations.CommandsOnDifferentChannelsCommute := by
  intro i j c d s hi hj hcd
  obtain ⟨e₀, -, hs1, -⟩ := (AgreeFor.refl i s).sameEffect
  obtain ⟨f, hf, hs2, ht⟩ := (agreeFor_apply hj hi hcd.symm hs1).sameEffect
  obtain ⟨e, he, hs1', hu⟩ := (agreeFor_apply hi hj hcd hs2).sameEffect
  have hsame : e₀.apply s = e.apply s := Host.Outcome.next.inj (hs1.symm.trans hs1')
  rw [hsame] at ht
  exact ⟨_, _, _, _, e.rsp, f.rsp, hs1', ht, hs2, hu, rfl, by simp, rfl, by simp,
    onChannels_comm hi hj hcd he hf s.ch, rfl⟩

/-! ### No hidden state (R20, R23, R32) -/

/-- Settles O42: an event has one effect on states that agree on the channels and on SRC. -/
theorem noHiddenState : Obligations.NoHiddenState := by
  intro e s1 s2 rest1 rest2 hp1 hp2 hch hsrc
  have hnch : s1.nch = s2.nch := nch_congr hch
  rw [step_cons hp1, step_cons hp2]
  cases e with
  | command w =>
    have hnch' : (s2.withPort rest2).nch = (s1.withPort rest1).nch := hnch.symm
    cases hdec : decode (s1.withPort rest1).nch w with
    | command i =>
      have hagree : AgreeFor i (s1.withPort rest1) (s2.withPort rest2) := ⟨hnch, fun c _ => chan_congr hch c, hsrc⟩
      obtain ⟨f, -, h1, h2⟩ := hagree.sameEffect
      exact ⟨_, _, [f.rsp], f.reads, (runEvent_command hdec).trans h1, (runEvent_command (hnch' ▸ hdec)).trans h2,
        congrArg f.onChannels hch, hsrc, rfl, rfl, rfl, rfl⟩
    | illegal why =>
      exact ⟨_, _, [responseWord .illegal 0], [], runEvent_illegal hdec, runEvent_illegal (hnch' ▸ hdec), hch, hsrc, rfl,
        rfl, (List.append_nil _).symm, (List.append_nil _).symm⟩
  | write a b =>
    refine ⟨_, _, [], [], runEvent_write _ a b, runEvent_write _ a b, hch, fun x => ?_, by simp, by simp, by simp, by simp⟩
    rw [hostWrite_srcByte, hostWrite_srcByte, withPort_srcByte, withPort_srcByte, hsrc]
  | reset =>
    refine ⟨_, _, [], [], runEvent_reset _, runEvent_reset _, ?_, hsrc, by simp, by simp, by simp, by simp⟩
    simp [hnch]

end Sys2Proof.Machine

/-! ## Family 20_memory: the reads of SRC (R41, R47) and its writes (R42, R48, R201) -/

namespace Sys2Proof.Machine

/-! ### The reads of a command (R41) -/

/-- `(BASE + IDX) mod 4096` as a SRC address (R47). -/
theorem addr_eq_ofNat (k : Channel) : k.addr = BitVec.ofNat 12 (k.base.toNat + k.idx.toNat) :=
  BitVec.eq_of_toNat_eq (addr_toNat k)

theorem exec_sadv_reads_of_yields {s t : State} {c : ChanIx} {k : Channel} (hk : s.chan? c = some k)
    (he : k.idx ≠ k.len) (ht : exec (.sadv c) s = .next t) : t.reads = s.reads ++ [k.addr] := by
  rw [exec_sadv_yields hk he] at ht
  cases ht
  exact yieldNibble_reads c k s

/-- A command reads nothing if it is no SADV on a channel with bytes left. -/
theorem exec_reads_of_not_yields {i : Instr} {s t : State}
    (hend : ∀ c k, i = .sadv c → s.chan? c = some k → k.idx = k.len) (ht : exec i s = .next t) : t.reads = s.reads := by
  obtain ⟨st, r, e⟩ | ⟨c, o, base, len, -, -, e⟩ | ⟨c, k, hi, hk, he, -⟩ := exec_cases i s
  · rw [e] at ht
    cases ht
    rfl
  · rw [e] at ht
    cases ht
    rfl
  · exact absurd (hend c k hi hk) he

/-- Settles O43: a command either is an SADV that yields, or it reads nothing. -/
theorem onlyYieldingSadvReadsOneByte : Obligations.OnlyYieldingSadvReadsOneByte := by
  intro i s t ht
  refine ⟨(exec_frame ht).1, ?_⟩
  by_cases hend : ∀ c k, i = .sadv c → s.chan? c = some k → k.idx = k.len
  · exact .inr ⟨exec_reads_of_not_yields hend ht, hend⟩
  · push Not at hend
    obtain ⟨c, k, rfl, hk, he⟩ := hend
    exact .inl ⟨c, k, rfl, hk, he, addr_eq_ofNat k ▸ exec_sadv_reads_of_yields hk he ht⟩

/-! ### The writes of SRC (R42) -/

/-- An event other than a host write to `a` leaves the byte at `a` as it was: commands and resets do not write SRC
(R41, R201), and a host write changes no other byte. -/
theorem runEvent_srcByte {e : HostEvent} {s t : State} {a : Addr} (hw : ∀ b, e ≠ .write a b)
    (ht : runEvent e s = .next t) : t.srcByte a = s.srcByte a := by
  obtain ⟨w, i, -, -, hr⟩ | ⟨w, why, -, -, hr⟩ | ⟨x, b, rfl, hr⟩ | ⟨-, hr⟩ := runEvent_cases e s <;>
    rw [hr] at ht
  case inl => exact srcByte_congr (exec_frame ht).1 a
  all_goals cases ht
  · rfl
  · have hne : a ≠ x := fun h => hw b (h ▸ rfl)
    rw [hostWrite_srcByte, if_neg hne]
  · rfl

/-- Settles O46: the byte at `a` is an invariant of a run without host writes to `a`. -/
theorem srcChangesOnlyByHostWrites : Obligations.SrcChangesOnlyByHostWrites := by
  intro s evs rest a hevs
  exact run_induction (P := fun t => t.srcByte a = s.srcByte a) (Q := fun e => ∀ b, e ≠ .write a b)
    (fun _ _ h => h) (fun _ _ _ hw h ht => (runEvent_srcByte hw ht).trans h) evs rest s hevs rfl

/-- Settles O14: read after write, and a store keeps the canonical form. -/
theorem hostWriteChangesOneByte : Obligations.HostWriteChangesOneByte := by
  intro s a b rest hp
  exact ⟨_, (step_cons hp).trans (runEvent_write _ a b), fun x => hostWrite_srcByte _ a x b, store_wf a b,
    rfl, rfl, rfl, rfl⟩

end Sys2Proof.Machine

/-! ## Family 30_encoding: decode and encode (R63, R65, R69), the match and mask table (R70), the causes of ILLEGAL (R66, R67,
R174, R176), the STATUS values (R62), and the assembler (R72 to R74) -/

namespace Sys2Proof

open Machine

/-! ### Commands come back from their words -/

/-- Settles O1: the word's row, mask, fields and channel are those of the command (`encodingFields`). -/
theorem decodeOfEncodeIsTheCommand : Obligations.DecodeOfEncodeIsTheCommand :=
  fun _ _ h => decode_encode h

/-! ### A row's mask decides its words (R70) -/

/-- The bits that R63 draws as 0 in a format are 0 in the word. -/
def Format.ReservedZero : Format → Word → Prop
  | .I, _ => True
  | .C, w => w.extractLsb' 21 7 = 0#7
  | .N, w => w.extractLsb' 4 24 = 0#24
  | .B, w => w.extractLsb' 8 20 = 0#20
  | .P, w => w.extractLsb' 8 20 = 0#20
  | .S, w => w.getLsbD 24 = false
  | .A, w => w.extractLsb' 0 26 = 0#26

/-- A row's mask compares OP and the reserved bits of the row's format (R63, R70). -/
theorem mask_iff {r : OpRow} (hr : r ∈ opcodeTable) (w : Word) :
    w &&& r.maskBits = r.matchBits ↔ fieldOP w = fieldOP r.matchBits ∧ r.format.ReservedZero w := by
  fin_cases hr
  · exact (mask_I w 1#4).trans (and_iff_left trivial).symm
  · exact (mask_I w 2#4).trans (and_iff_left trivial).symm
  · exact mask_C w
  · exact mask_N w 4#4
  · exact mask_N w 5#4
  · exact mask_B w 6#4
  · exact mask_B w 7#4
  · exact mask_S w
  · exact mask_A w

theorem rowOfOpcode_matchBits : ∀ r ∈ opcodeTable, rowOfOpcode (fieldOP r.matchBits) = some r := by decide

/-- A word that matches a row under the row's mask finds that row, and so matches no other. -/
theorem findRow_of_mask {r : OpRow} (hr : r ∈ opcodeTable) {w : Word} (h : w &&& r.maskBits = r.matchBits) :
    findRow w = some r :=
  findRow_of_opcode (rowOfOpcode_matchBits r hr) ((mask_iff hr w).mp h).1

/-- Which words are commands, and which command each is: `decode_command` and its converse. -/
theorem decode_eq_command_iff {nch : Nat} {w : Word} {i : Instr} :
    decode nch w = .command i ↔
      ∃ r ∈ opcodeTable, w &&& r.maskBits = r.matchBits ∧ (r.format.hasChannel = true → (fieldCH2 w).toNat < nch) ∧
        i = r.mnemonic.read w := by
  constructor
  · intro h
    obtain ⟨r, hr, -, hmask, hchannel, hread⟩ := decode_command h
    exact ⟨r, hr, hmask, hchannel, hread⟩
  · rintro ⟨r, hr, hmask, hchannel, rfl⟩
    have hexists : ¬ (r.format.hasChannel = true ∧ nch ≤ (fieldCH2 w).toNat) :=
      fun ⟨hf, hge⟩ => Nat.not_lt.mpr hge (hchannel hf)
    rw [decode_of_row (findRow_of_mask hr hmask), if_neg (not_not.mpr hmask), if_neg hexists]

/-- The rows of the statements are the rows of the decoder. -/
theorem mem_specRows_iff {p : Word × Word × Bool} :
    p ∈ specRows ↔ ∃ r ∈ opcodeTable, (r.matchBits, r.maskBits, r.format.hasChannel) = p :=
  List.mem_map (f := fun r : OpRow => (r.matchBits, r.maskBits, r.format.hasChannel)) (l := opcodeTable)

/-- Settles O3: a word that matches a row finds it, so it is that row's command and matches no other row. -/
theorem matchAndMaskDecideTheCommands : Obligations.MatchAndMaskDecideTheCommands := by
  intro nch w
  refine ⟨⟨?_, ?_⟩, ?_⟩
  · rintro ⟨i, hi⟩
    obtain ⟨r, hr, hmask, hchannel, -⟩ := decode_eq_command_iff.mp hi
    exact ⟨_, mem_specRows_iff.mpr ⟨r, hr, rfl⟩, hmask, hchannel⟩
  · rintro ⟨p, hp, hmask, hchannel⟩
    obtain ⟨r, hr, rfl⟩ := mem_specRows_iff.mp hp
    exact ⟨_, decode_eq_command_iff.mpr ⟨r, hr, hmask, hchannel, rfl⟩⟩
  · intro p hp q hq hpmask hqmask
    obtain ⟨r, hr, rfl⟩ := mem_specRows_iff.mp hp
    obtain ⟨r', hr', rfl⟩ := mem_specRows_iff.mp hq
    obtain rfl : r = r' := Option.some.inj ((findRow_of_mask hr hpmask).symm.trans (findRow_of_mask hr' hqmask))
    rfl

/-! ### Words come back from their commands (R69) -/

/-- A word whose middle field is zero, put together from its fields. -/
theorem append_zero_append {n m k : Nat} {w : BitVec (n + m + k)} {v : BitVec n} (hhigh : w.extractLsb' (m + k) n = v)
    (hzero : w.extractLsb' k m = 0#m) : v ++ 0#m ++ w.extractLsb' 0 k = w := by
  rw [← hhigh, ← hzero, BitVec.extractLsb'_append_extractLsb'_eq_extractLsb' (Nat.add_comm m k), append_extract]

/-- A word of format P, put together from its fields. -/
theorem append_zero_append_pair {w : Word} {v : BitVec 4} (hop : fieldOP w = v) (hzero : w.extractLsb' 8 20 = 0#20) :
    v ++ 0#20 ++ fieldH4 w ++ fieldL4 w = w := by
  have hupper : v ++ 0#20 ++ fieldH4 w = w.extractLsb' 4 28 := by
    have hpart : v ++ 0#20 = w.extractLsb' 8 24 := by
      rw [← hop, ← hzero]
      exact BitVec.extractLsb'_append_extractLsb'_eq_extractLsb' rfl
    rw [hpart]
    exact BitVec.extractLsb'_append_extractLsb'_eq_extractLsb' rfl
  rw [hupper]
  exact append_extract 28 4 w

/-- A word that matches a row is the word of the command read from it. -/
theorem encode_read {r : OpRow} (hr : r ∈ opcodeTable) {w : Word} (h : w &&& r.maskBits = r.matchBits) :
    encode (r.mnemonic.read w) = w := by
  have hdecode : decode 4 w = .command (r.mnemonic.read w) :=
    decode_eq_command_iff.mpr ⟨r, hr, h, fun _ => (fieldCH2 w).isLt, rfl⟩
  obtain ⟨hop, hzero⟩ := (mask_iff hr w).mp h
  clear h
  fin_cases hr
  · exact (congrArg (· ++ fieldV28 w) hop.symm).trans (append_extract 4 28 w)
  · exact (congrArg (· ++ fieldV28 w) hop.symm).trans (append_extract 4 28 w)
  · exact append_zero_append hop hzero
  · exact append_zero_append hop hzero
  · exact append_zero_append hop hzero
  · exact append_zero_append hop hzero
  · exact append_zero_append_pair hop hzero
  · exact (eq_encode_of_decode_screate hdecode).symm
  · exact (eq_encode_of_decode_sadv hdecode).symm

/-- The channel of the command read from a row is CH2, in the formats that carry one (R63). -/
theorem channel_read {r : OpRow} (hr : r ∈ opcodeTable) (w : Word) :
    (r.mnemonic.read w).channel? = if r.format.hasChannel then some (fieldCH2 w) else none := by
  fin_cases hr <;> rfl

/-- Settles O2: a command is read from a row that its word matches, on a channel that exists. -/
theorem encodeOfDecodeIsTheWord : Obligations.EncodeOfDecodeIsTheWord := by
  intro nch w i h
  obtain ⟨r, hr, hmask, hchannel, rfl⟩ := decode_eq_command_iff.mp h
  refine ⟨encode_read hr hmask, (wellFormed_iff _ _).mpr fun c hc => ?_⟩
  rw [channel_read hr, Option.ite_none_right_eq_some, Option.some.injEq] at hc
  obtain ⟨hf, rfl⟩ := hc
  exact hchannel hf

/-! ### The causes of ILLEGAL (R174, R176) -/

/-- A reserved bit belongs to a defined OP (R67). -/
theorem not_reservedOpcode_of_reservedBit {w : Word} (h : ReservedBit w) : ¬ ReservedOpcode w := by
  unfold ReservedBit at h
  unfold ReservedOpcode
  omega

theorem not_reservedOpcode_of_noSuchChannel {nch : Nat} {w : Word} (h : NoSuchChannel nch w) : ¬ ReservedOpcode w := by
  unfold NoSuchChannel at h
  unfold ReservedOpcode
  omega

/-- Under a row's opcode, a reserved bit is one of the row's format. -/
theorem reservedBit_iff {r : OpRow} (hr : r ∈ opcodeTable) {w : Word} (hop : fieldOP w = fieldOP r.matchBits) :
    ReservedBit w ↔ ¬ r.format.ReservedZero w := by
  have hnum : (w.extractLsb' 28 4).toNat = (fieldOP r.matchBits).toNat := congrArg BitVec.toNat hop
  rw [ReservedBit, hnum]
  clear hop hnum
  fin_cases hr <;> simp [fieldOP, Format.ReservedZero]

theorem hasChannel_iff_opcode : ∀ r ∈ opcodeTable,
    r.format.hasChannel = true ↔ (fieldOP r.matchBits).toNat = 8 ∨ (fieldOP r.matchBits).toNat = 9 := by decide

/-- The decoder by the causes of ILLEGAL, in the order in which it tests them. -/
theorem decode_cases (nch : Nat) (w : Word) :
    (ReservedOpcode w ∧ decode nch w = .illegal .reservedOpcode) ∨
    (ReservedBit w ∧ decode nch w = .illegal .reservedBit) ∨
    (¬ ReservedBit w ∧ NoSuchChannel nch w ∧ decode nch w = .illegal .noSuchChannel) ∨
    (¬ ReservedOpcode w ∧ ¬ ReservedBit w ∧ ¬ NoSuchChannel nch w ∧ ∃ i, decode nch w = .command i) := by
  cases hrow : findRow w with
  | none => exact .inl ⟨(findRow_eq_none_iff w).mp hrow, decode_of_no_row hrow⟩
  | some r =>
    have hr : r ∈ opcodeTable := List.mem_of_find?_eq_some hrow
    have hop := fieldOP_of_findRow hrow
    have hdefined : ¬ ReservedOpcode w := fun h => by simp [(findRow_eq_none_iff w).mpr h] at hrow
    have hbit : ReservedBit w ↔ w &&& r.maskBits ≠ r.matchBits := by
      rw [reservedBit_iff hr hop, Ne, mask_iff hr, and_iff_right hop]
    have hchannel : NoSuchChannel nch w ↔ r.format.hasChannel = true ∧ nch ≤ (fieldCH2 w).toNat := by
      rw [hasChannel_iff_opcode r hr, ← hop]
      rfl
    have hdecode := decode_of_row (nch := nch) hrow
    simp only [← hbit, ← hchannel] at hdecode
    split_ifs at hdecode with hb hc
    · exact .inr (.inl ⟨hb, hdecode⟩)
    · exact .inr (.inr (.inl ⟨hb, hc, hdecode⟩))
    · exact .inr (.inr (.inr ⟨hdefined, hb, hc, _, hdecode⟩))

/-- Settles O7: the cases of the decoder, and that a word with one of the later causes has a defined OP. -/
theorem decodeTestsCausesInOrder : Obligations.DecodeTestsCausesInOrder := by
  intro nch w
  obtain ⟨ha, hd⟩ | ⟨hb, hd⟩ | ⟨hb, hc, hd⟩ | ⟨ha, hb, hc, i, hd⟩ := decode_cases nch w <;> rw [hd]
  · have hb : ¬ ReservedBit w := fun hb => not_reservedOpcode_of_reservedBit hb ha
    have hc : ¬ NoSuchChannel nch w := fun hc => not_reservedOpcode_of_noSuchChannel hc ha
    simp [ha, hb, hc]
  · simp [hb, not_reservedOpcode_of_reservedBit hb]
  · simp [hb, eq_true hc, not_reservedOpcode_of_noSuchChannel hc]
  · simp [ha, hb, hc]

end Sys2Proof

namespace Sys2Proof.Machine

/-! ### Steps on a command word -/

/-- Settles O10: a step is the event at the head of the port, and the event of a word that decodes runs the command. -/
theorem stepRunsTheDecodedCommand : Obligations.StepRunsTheDecodedCommand :=
  fun _ _ _ _ hp hdec => (step_cons hp).trans (runEvent_command hdec)

/-- A word that decodes to no command is answered with STATUS ILLEGAL and RESULT 0, and changes nothing else (R174, R178). -/
theorem step_illegal {s : State} {w : Word} {rest : List HostEvent} {why : IllegalCause}
    (hp : s.port = .command w :: rest) (hdec : decode s.nch w = .illegal why) :
    step s = .next { s with port := rest, rsps := s.rsps ++ [0xF0000000] } :=
  (step_cons hp).trans (runEvent_illegal hdec)

/-- Settles O4: a reserved opcode has no row. -/
theorem reservedOpcodeIsIllegal : Obligations.ReservedOpcodeIsIllegal :=
  ⟨fun s w _ hp h => step_illegal hp ((decodeTestsCausesInOrder s.nch w).1.mpr h), by decide⟩

/-- Settles O5: a reserved bit fails the mask of the word's row. -/
theorem reservedBitIsIllegal : Obligations.ReservedBitIsIllegal :=
  fun s w _ hp h => step_illegal hp ((decodeTestsCausesInOrder s.nch w).2.1.mpr h)

/-! ### The STATUS values (R62) -/

/-- An event gives at most one response, a response word. -/
theorem runEvent_rsps {e : HostEvent} {s t : State} (ht : runEvent e s = .next t) :
    t.rsps = s.rsps ∨ ∃ st r, t.rsps = s.rsps ++ [responseWord st r] := by
  obtain ⟨w, i, -, -, hr⟩ | ⟨w, why, -, -, hr⟩ | ⟨a, b, -, hr⟩ | ⟨-, hr⟩ := runEvent_cases e s <;> rw [hr] at ht
  case inl =>
    obtain ⟨-, -, -, hrsps, -⟩ := exec_frame ht
    exact .inr hrsps
  all_goals cases ht
  · exact .inr ⟨_, _, rfl⟩
  · exact .inl rfl
  · exact .inl rfl

/-- Settles O13: a step adds nothing but response words, and each has one of the five statuses. -/
theorem onlyLegalStatuses : Obligations.OnlyLegalStatuses := by
  intro s t ht r hr
  obtain ⟨-, hs⟩ | ⟨e, rest, -, hs⟩ := step_cases s <;> rw [hs] at ht
  · cases ht
    exact .inl hr
  · obtain hrsps | ⟨st, result, hrsps⟩ := runEvent_rsps ht <;> rw [hrsps] at hr
    · exact .inl hr
    · rcases List.mem_append.mp hr with hr | hr
      · exact .inl hr
      · rw [List.mem_singleton.mp hr]
        exact .inr (legalStatus_responseWord st result)

/-! ### Example words (R74) -/

/-- The formula of R74 for the word of SCREATE. -/
theorem encode_screate_eq_or (c : ChanIx) (o : Order) (base : Addr) (len : Count) :
    encode (.screate c o base len) =
      0x80000000#32 ||| c.setWidth 32 <<< 26 ||| (if o = .lowFirst then 1#32 else 0#32) <<< 25 |||
        base.setWidth 32 <<< 12 ||| len.setWidth 32 := by
  have hord : o.toBit.setWidth 32 = if o = .lowFirst then 1#32 else 0#32 := by cases o <;> rfl
  rw [← hord, encode, ← BitVec.setWidth_eq (0x8#4 ++ c ++ o.toBit ++ 0#1 ++ base ++ len)]
  simp only [BitVec.setWidth_append_eq_shiftLeft_setWidth_or]
  simp [BitVec.shiftLeft_or_distrib]

/-- Settles O8: the example lines by running the assembler, the formula for all operands. -/
theorem encodingsOfTheSpecExamples : Obligations.EncodingsOfTheSpecExamples :=
  ⟨by decide, encode_screate_eq_or⟩

/-- Settles O9 by running the decoder. -/
theorem specWordsDecode : Obligations.SpecWordsDecode := by
  unfold Obligations.SpecWordsDecode
  decide

/-! ### The assembler (R72, R73) -/

theorem inField_of_lt {w n : Nat} (h : n < 2 ^ w) : inField w n = .ok (BitVec.ofNat w n) := if_pos h

theorem inField_of_not_lt {w n : Nat} (h : ¬ n < 2 ^ w) : inField w n = .error .outOfRange := if_neg h

/-- The last operand: the command, or out of range. -/
theorem map_inField {α : Type} {w : Nat} (f : BitVec w → α) (n : Nat) :
    (inField w n).map f = if n < 2 ^ w then .ok (f (BitVec.ofNat w n)) else .error .outOfRange := by
  by_cases h : n < 2 ^ w
  · rw [inField_of_lt h, if_pos h]
    rfl
  · rw [inField_of_not_lt h, if_neg h]
    rfl

/-- An operand before others, which are in range exactly if `p` holds. -/
theorem bind_inField {α : Type} {w n : Nat} {p : Prop} [Decidable p] {g : BitVec w → Except AsmError α} {x : α}
    (hg : g (BitVec.ofNat w n) = if p then .ok x else .error .outOfRange) :
    (inField w n >>= g) = if n < 2 ^ w ∧ p then .ok x else .error .outOfRange := by
  by_cases h : n < 2 ^ w
  · simp only [inField_of_lt h, h, true_and, ← hg]
    rfl
  · simp only [inField_of_not_lt h, h, false_and]
    rfl

/-- Every character fits CP21. -/
theorem char_toNat_lt (c : Char) : c.toNat < 2 ^ 21 := by
  have hvalid : c.toNat.isValidChar := c.valid
  unfold Nat.isValidChar at hvalid
  omega

/-- Settles O51: both forms are `asmScreate` with HighFirst. -/
theorem threeOperandCreateIsHighFirst : Obligations.ThreeOperandCreateIsHighFirst :=
  fun _ _ _ => rfl

/-- Settles O50: each operand goes through `inField`. -/
theorem assemblerNeverTruncates : Obligations.AssemblerNeverTruncates :=
  ⟨map_inField _, map_inField _, map_inField _,
    fun c => (map_inField Instr.hexp c.toNat).trans (if_pos (char_toNat_lt c)),
    map_inField _, map_inField _, map_inField _,
    fun _ l => bind_inField (map_inField _ l),
    fun _ _ _ l => bind_inField (bind_inField (map_inField _ l)),
    map_inField _⟩

/-- The inversion of `assembleLine`: a word comes from a mnemonic and operands that make a command. -/
theorem assembleLine_word {line : List Char} {w : Word} (h : assembleLine line = .word w) :
    ∃ m ops i, asmInstr m ops = .ok i ∧ w = encode i := by
  unfold assembleLine at h
  split at h
  case h_2 =>
    split at h
    case h_1 => cases h
    case h_2 m _ =>
      split at h
      case h_1 => cases h
      case h_2 ops _ =>
        split at h
        case h_1 i hi =>
          cases h
          exact ⟨m, ops, i, hi, rfl⟩
        case h_2 => cases h
  all_goals cases h

/-- Settles O52: on four channels every command is well formed. -/
theorem assembledWordsAreCommands : Obligations.AssembledWordsAreCommands := by
  intro line w h
  obtain ⟨-, -, i, -, rfl⟩ := assembleLine_word h
  exact ⟨i, decode_encode ((wellFormed_iff 4 i).mpr fun c _ => c.isLt), rfl⟩

end Sys2Proof.Machine

/-! ## Family 40_value: the value unit (R100 to R106) -/

namespace Sys2Proof

/-- A word that matches a row without a channel decodes, on every block, to the command read from the row (R69). -/
theorem decode_of_mask {op : BitVec 4} {r : OpRow} (hr : rowOfOpcode op = some r) (hf : r.format.hasChannel = false)
    (nch : Nat) {w : Word} (h : w &&& r.maskBits = r.matchBits) : decode nch w = .command (r.mnemonic.read w) :=
  decode_eq_command_iff.mpr
    ⟨r, List.mem_of_find?_eq_some hr, h, fun hc => absurd hc (Bool.eq_false_iff.mp hf), rfl⟩

end Sys2Proof

namespace Sys2Proof.Machine

/-! ### Responses as numbers -/

/-- An OK response word is its RESULT as a number, since STATUS is 0 (R61, R62). -/
theorem responseWord_ok_eq {r : BitVec 28} {w : Word} (h : r.toNat = w.toNat) : responseWord .ok r = w := by
  apply BitVec.eq_of_toNat_eq
  rw [responseWord_toNat, ← h, Status.code]
  exact Nat.zero_add _

theorem RespondsOnly.of_exec {i : Instr} {s : State} {st : Status} {r : BitVec 28} {w : Word}
    (h : exec i s = .next (s.respond st r)) (hw : responseWord st r = w) : RespondsOnly i s w :=
  hw ▸ h

theorem responseWord_ok_nibble (n : Nibble) : responseWord .ok (zext28 n) = 0#28 ++ n :=
  responseWord_ok_eq (by rw [zext28_toNat (by decide), append_toNat]; exact (Nat.zero_add _).symm)

/-! ### NVAL, NMASK and NTOI (R100 to R102) -/

theorem outOfRange_iff (v : Int28) : outOfRange v = true ↔ 16 ≤ v.toNat := by
  rw [outOfRange, decide_eq_true_iff, BitVec.lt_def]
  rfl

/-- An integer in [0, 15] is the nibble in its low four bits. -/
theorem zext28_low4 {v : Int28} (h : v.toNat ≤ 15) : zext28 (low4 v) = v := by
  apply BitVec.eq_of_toNat_eq
  rw [zext28_toNat (by decide), low4_toNat, Nat.mod_eq_of_lt (Nat.lt_succ_of_le h)]

theorem nval_respondsOnly_ok {v : Int28} (h : v.toNat ≤ 15) (s : State) :
    RespondsOnly (.nval v) s (responseWord .ok v) := by
  have hin : outOfRange v = false := Bool.eq_false_iff.mpr fun hout => by
    have := (outOfRange_iff v).mp hout
    omega
  exact .of_exec (exec_nval_inRange hin s) (by rw [zext28_low4 h])

theorem nval_respondsOnly_range {v : Int28} (h : 16 ≤ v.toNat) (s : State) :
    RespondsOnly (.nval v) s (responseWord .range v) :=
  exec_nval_outOfRange ((outOfRange_iff v).mpr h) s

theorem nmask_respondsOnly {v : Int28} {w : Word} (h : v.toNat % 16 = w.toNat) (s : State) :
    RespondsOnly (.nmask v) s w :=
  .of_exec (exec_nmask v s) (responseWord_ok_eq (by rw [zext28_toNat (by decide), low4_toNat, h]))

theorem ntoi_respondsOnly (n : Nibble) (s : State) : RespondsOnly (.ntoi n) s (0#28 ++ n) :=
  .of_exec (exec_ntoi n s) (responseWord_ok_nibble n)

/-- A negative integer in 28-bit two's complement is out of NVAL's range. -/
theorem toNat_ofInt_neg_ge {z : Int} (hlow : -(2 ^ 27) ≤ z) (hneg : z < 0) : 16 ≤ (BitVec.ofInt 28 z).toNat := by
  rw [BitVec.toNat_ofInt]
  omega

/-- Settles O20: a value of at most 15 is its own low nibble, and a negative integer is at least 2^27 as a 28-bit value. -/
theorem nvalValidatesItsOperand : Obligations.NvalValidatesItsOperand := by
  refine ⟨fun nch w h => decode_of_mask row_nval rfl nch h, fun v s => ?_, fun z s hlow hneg => ?_⟩
  · split_ifs with h
    · exact nval_respondsOnly_ok h s
    · exact nval_respondsOnly_range (Nat.lt_of_not_le h) s
  · exact nval_respondsOnly_range (toNat_ofInt_neg_ge hlow hneg) s

/-- Settles O21: 16 divides 2^28, so the low four bits are those of the integer before it was presented. -/
theorem nmaskTakesTheLowFourBits : Obligations.NmaskTakesTheLowFourBits := by
  refine ⟨fun nch w h => decode_of_mask row_nmask rfl nch h, fun v s => nmask_respondsOnly ?_ s,
    fun u s => nmask_respondsOnly ?_ s, fun z s => nmask_respondsOnly ?_ s⟩
  · rw [BitVec.toNat_ofNat]
    omega
  · rw [BitVec.toNat_ofNat, BitVec.toNat_ofNat]
    omega
  · rw [BitVec.toNat_ofInt, BitVec.toNat_ofInt]
    omega

/-- RESULT at any width that holds a nibble is the nibble (R102). -/
theorem setWidth_resultOf_nibble (n : Nibble) {width : Nat} (h : 4 ≤ width) :
    ((resultOf (0#28 ++ n)).setWidth width).toNat = n.toNat := by
  rw [← responseWord_ok_nibble, resultOf_responseWord, BitVec.toNat_setWidth, zext28_toNat (by decide)]
  exact Nat.mod_eq_of_lt (Nat.lt_of_lt_of_le n.isLt (Nat.pow_le_pow_right (by decide) h))

/-- Settles O22: the response is the nibble as a number, which every width from 4 up holds. -/
theorem ntoiZeroExtends : Obligations.NtoiZeroExtends :=
  ⟨fun nch _ h => decode_of_mask row_ntoi rfl nch h, ntoi_respondsOnly, fun n _ h => setWidth_resultOf_nibble n h⟩

/-! ### HEXP and HEXR (R103 to R105) -/

/-- The 22 code points that HEXP accepts (R103, R105). -/
abbrev IsHexDigit (c : CodePoint) : Prop :=
  (0x30 ≤ c.toNat ∧ c.toNat ≤ 0x39) ∨ (0x41 ≤ c.toNat ∧ c.toNat ≤ 0x46) ∨ (0x61 ≤ c.toNat ∧ c.toNat ≤ 0x66)

/-- What HEXP reads, range by range: the value of a digit, or nothing. -/
theorem hexNibble_cases (c : CodePoint) :
    (∃ n, hexNibble c = some n ∧
      ((0x30 ≤ c.toNat ∧ c.toNat ≤ 0x39 ∧ n.toNat = c.toNat - 0x30) ∨
       (0x41 ≤ c.toNat ∧ c.toNat ≤ 0x46 ∧ n.toNat = c.toNat - 0x41 + 10) ∨
       (0x61 ≤ c.toNat ∧ c.toNat ≤ 0x66 ∧ n.toNat = c.toNat - 0x61 + 10))) ∨
    (hexNibble c = none ∧ ¬ IsHexDigit c) := by
  unfold hexNibble IsHexDigit
  simp only [BitVec.le_def, BitVec.toNat_ofNat]
  split_ifs
  · refine .inl ⟨_, rfl, .inl ?_⟩
    simp only [low4_toNat, BitVec.toNat_sub, BitVec.toNat_ofNat]
    omega
  · refine .inl ⟨_, rfl, .inr (.inl ?_)⟩
    simp only [low4_toNat, BitVec.toNat_add, BitVec.toNat_sub, BitVec.toNat_ofNat]
    omega
  · refine .inl ⟨_, rfl, .inr (.inr ?_)⟩
    simp only [low4_toNat, BitVec.toNat_add, BitVec.toNat_sub, BitVec.toNat_ofNat]
    omega
  · refine .inr ⟨rfl, ?_⟩
    omega

theorem hexNibble_of_isHexDigit {c : CodePoint} (h : IsHexDigit c) : ∃ n, hexNibble c = some n := by
  obtain ⟨n, hn, -⟩ | ⟨-, hc⟩ := hexNibble_cases c
  · exact ⟨n, hn⟩
  · exact absurd h hc

theorem hexNibble_eq_none {c : CodePoint} (h : ¬ IsHexDigit c) : hexNibble c = none := by
  obtain ⟨n, -, hn⟩ | ⟨hc, -⟩ := hexNibble_cases c
  · omega
  · exact hc

theorem hexCode_toNat : ∀ n : Nibble,
    (hexCode n).toNat = if n.toNat ≤ 9 then 0x30 + n.toNat else 0x61 + (n.toNat - 10) := by
  decide

theorem hexp_respondsOnly_ok {c : CodePoint} {n : Nibble} (h : hexNibble c = some n) (s : State) :
    RespondsOnly (.hexp c) s (0#28 ++ n) :=
  .of_exec (exec_hexp_digit h s) (responseWord_ok_nibble n)

theorem hexp_respondsOnly_parse {c : CodePoint} (h : hexNibble c = none) (s : State) :
    RespondsOnly (.hexp c) s (responseWord .parse (zext28 c)) :=
  exec_hexp_other h s

/-- The PARSE response carries the code point below seven zero bits (R103). -/
theorem responseWord_parse_codePoint (c : CodePoint) : responseWord .parse (zext28 c) = 0x3#4 ++ 0#7 ++ c := by
  apply BitVec.eq_of_toNat_eq
  simp only [responseWord_toNat, zext28_toNat (by decide : 21 ≤ 28), append_toNat, BitVec.toNat_ofNat,
    show Status.parse.code.toNat = 3 from rfl]
  omega

theorem hexr_respondsOnly {n : Nibble} {w : Word}
    (h : (if n.toNat ≤ 9 then 0x30 + n.toNat else 0x61 + (n.toNat - 10)) = w.toNat) (s : State) :
    RespondsOnly (.hexr n) s w :=
  .of_exec (exec_hexr n s) (responseWord_ok_eq ((hexCode_toNat n).trans h))

/-- Settles O23, range by range. -/
theorem hexpParsesExactlyTheHexDigits : Obligations.HexpParsesExactlyTheHexDigits := by
  refine ⟨fun nch w h => decode_of_mask row_hexp rfl nch h, fun c s => ?_⟩
  obtain ⟨n, hn, hv⟩ | ⟨hn, hc⟩ := hexNibble_cases c
  · refine RespondsOnly.of_exec (exec_hexp_digit hn s) (responseWord_ok_eq ?_)
    rw [zext28_toNat (by decide)]
    obtain ⟨hlow, hhigh, hv⟩ | ⟨hlow, hhigh, hv⟩ | ⟨hlow, hhigh, hv⟩ := hv
    · rw [if_pos ⟨hlow, hhigh⟩, BitVec.toNat_ofNat]
      omega
    · rw [if_neg (by omega), if_pos ⟨hlow, hhigh⟩, BitVec.toNat_ofNat]
      omega
    · rw [if_neg (by omega), if_neg (by omega), if_pos ⟨hlow, hhigh⟩, BitVec.toNat_ofNat]
      omega
  · rw [if_neg (by omega), if_neg (by omega), if_neg (by omega), ← responseWord_parse_codePoint]
    exact hexp_respondsOnly_parse hn s

/-- Settles O24: the code points of R105 as numbers. -/
theorem hexrRendersLowerCase : Obligations.HexrRendersLowerCase := by
  refine ⟨fun nch w h => decode_of_mask row_hexr rfl nch h, fun n s => hexr_respondsOnly ?_ s⟩
  have := n.isLt
  split_ifs
  · rw [BitVec.toNat_ofNat]
    omega
  · rw [BitVec.toNat_ofNat]
    omega

/-! ### The laws of the value unit (R106) -/

/-- A nibble's response carries STATUS OK and the nibble in the low bits of RESULT. -/
theorem statusOf_nibble (n : Nibble) : statusOf (0#28 ++ n) = 0 := by
  rw [← responseWord_ok_nibble]
  exact statusOf_responseWord _ _

theorem extract_resultOf_nibble (n : Nibble) : (resultOf (0#28 ++ n)).extractLsb' 0 4 = n := by
  apply BitVec.eq_of_toNat_eq
  rw [← responseWord_ok_nibble, resultOf_responseWord, extract_toNat, zext28_toNat (by decide)]
  omega

/-- NTOI gives back the value NVAL accepted. -/
theorem ntoi_respondsOnly_nval {v : Int28} (h : v.toNat ≤ 15) (s : State) :
    RespondsOnly (.ntoi ((resultOf (responseWord .ok v)).extractLsb' 0 4)) s (responseWord .ok v) := by
  rw [resultOf_responseWord]
  exact .of_exec (exec_ntoi _ s) (congrArg _ (zext28_low4 h))

/-- HEXR gives the digit HEXP read in lower case: 'A' to 'F' move up by 0x20, the other digits stay. -/
theorem hexr_respondsOnly_hexp {c : CodePoint} {n : Nibble} (hn : hexNibble c = some n) (s : State) :
    RespondsOnly (.hexr n) s
      (BitVec.ofNat 32 (if 0x41 ≤ c.toNat ∧ c.toNat ≤ 0x46 then c.toNat + 0x20 else c.toNat)) := by
  obtain ⟨m, hm, hv⟩ | ⟨hnone, -⟩ := hexNibble_cases c
  · obtain rfl : m = n := Option.some.inj (hm.symm.trans hn)
    refine hexr_respondsOnly ?_ s
    rw [BitVec.toNat_ofNat]
    obtain ⟨hlow, hhigh, hv⟩ | ⟨hlow, hhigh, hv⟩ | ⟨hlow, hhigh, hv⟩ := hv
    · rw [if_pos (by omega), if_neg (by omega)]
      omega
    · rw [if_neg (by omega), if_pos ⟨hlow, hhigh⟩]
      omega
    · rw [if_neg (by omega), if_neg (by omega)]
      omega
  · cases hnone.symm.trans hn

/-- HEXP reads back the code point that HEXR gives (R106). -/
theorem hexNibble_hexCode : ∀ n : Nibble, hexNibble ((hexCode n).extractLsb' 0 21) = some n := by
  decide

/-- Settles O25: each law is the response of the first command, then of the second to its RESULT. -/
theorem valueUnitLaws : Obligations.ValueUnitLaws := by
  refine ⟨fun v s h => ?_, fun v s h => ?_, fun v s => ?_, fun c s h => ?_, fun n s => ?_, fun c s h => ?_⟩
  · exact ⟨_, nval_respondsOnly_ok h s, statusOf_responseWord _ _, ntoi_respondsOnly_nval h⟩
  · exact ⟨_, nval_respondsOnly_range h s, statusOf_responseWord _ _⟩
  · refine ⟨_, exec_nmask v s, statusOf_responseWord _ _, ?_⟩
    rw [resultOf_responseWord, zext28_toNat (by decide), low4_toNat]
  · obtain ⟨n, hn⟩ := hexNibble_of_isHexDigit h
    refine ⟨_, hexp_respondsOnly_ok hn s, statusOf_nibble n, ?_⟩
    rw [extract_resultOf_nibble]
    exact hexr_respondsOnly_hexp hn
  · refine ⟨_, exec_hexr n s, ?_⟩
    rw [resultOf_responseWord]
    exact hexp_respondsOnly_ok (hexNibble_hexCode n)
  · exact ⟨_, hexp_respondsOnly_parse (hexNibble_eq_none h) s, statusOf_responseWord _ _⟩

end Sys2Proof.Machine

/-! ## Family 41_codec: the extractor and the packer (R120, R121), SPLIT and COMB (R122, R123), and their round trips (R124) -/

namespace Sys2Proof.Machine

/-! ### The datapath round trips (R124) -/

/-- A byte is its high nibble over its low one. -/
theorem append_nibbles (b : Byte) : b.extractLsb' 4 4 ++ b.extractLsb' 0 4 = b := append_extract 4 4 b

theorem pack_nibHigh_nibLow (b : Byte) : pack (nibHigh b) (nibLow b) = b := by
  rw [pack_eq_append, nibHigh_eq, nibLow_eq, append_nibbles]

theorem nibHigh_pack (h l : Nibble) : nibHigh (pack h l) = h := by
  rw [pack_eq_append, nibHigh_eq]
  exact extract_append_high h l

theorem nibLow_pack (h l : Nibble) : nibLow (pack h l) = l := by
  rw [pack_eq_append, nibLow_eq]
  exact extract_append_low h l

/-- The pair's lanes are the byte's own nibbles (R122). -/
theorem pairBits_nibHigh_nibLow (b : Byte) : pairBits (nibHigh b) (nibLow b) = b :=
  (pack_eq_append _ _).symm.trans (pack_nibHigh_nibLow b)

/-! ### A byte as a response -/

theorem responseWord_ok_byte (b : Byte) : responseWord .ok (zext28 b) = 0#24 ++ b :=
  responseWord_ok_eq (by rw [zext28_toNat (by decide), append_toNat]; exact (Nat.zero_add _).symm)

theorem resultOf_byte (b : Byte) : resultOf (0#24 ++ b) = zext28 b := by
  rw [← responseWord_ok_byte, resultOf_responseWord]

/-- A field of the byte reads the same from RESULT, where the byte stands in the low lanes (R122). -/
theorem extract_resultOf_byte (b : Byte) (start len : Nat) :
    (resultOf (0#24 ++ b)).extractLsb' start len = b.extractLsb' start len := by
  apply BitVec.eq_of_toNat_eq
  rw [resultOf_byte, extract_toNat, extract_toNat, zext28_toNat (by decide)]

theorem resultOf_byte_high (b : Byte) : (resultOf (0#24 ++ b)).extractLsb' 4 4 = nibHigh b :=
  (extract_resultOf_byte b _ _).trans (nibHigh_eq b).symm

theorem resultOf_byte_low (b : Byte) : (resultOf (0#24 ++ b)).extractLsb' 0 4 = nibLow b :=
  (extract_resultOf_byte b _ _).trans (nibLow_eq b).symm

theorem resultOf_byte_all (b : Byte) : (resultOf (0#24 ++ b)).extractLsb' 0 8 = b :=
  (extract_resultOf_byte b _ _).trans BitVec.extractLsb'_eq_self

/-! ### SPLIT and COMB (R122, R123) -/

theorem split_respondsOnly (b : Byte) (s : State) : RespondsOnly (.split b) s (0#24 ++ b) :=
  .of_exec (exec_split b s) (by rw [pairBits_nibHigh_nibLow, responseWord_ok_byte])

theorem comb_respondsOnly (h l : Nibble) (s : State) : RespondsOnly (.comb h l) s (0#24 ++ pack h l) :=
  .of_exec (exec_comb h l s) (responseWord_ok_byte _)

/-- Settles O28: each command answers with a byte, whose lanes are the next command's operands. -/
theorem codecRoundTrips : Obligations.CodecRoundTrips := by
  refine ⟨pack_nibHigh_nibLow, fun h l => ⟨nibHigh_pack h l, nibLow_pack h l⟩, fun b s => ?_, fun h l s => ?_⟩
  · refine ⟨_, split_respondsOnly b s, fun u => ?_⟩
    have hcomb := comb_respondsOnly (nibHigh b) (nibLow b) u
    rwa [pack_nibHigh_nibLow, ← resultOf_byte_high, ← resultOf_byte_low] at hcomb
  · refine ⟨_, comb_respondsOnly h l s, fun u => ?_⟩
    rw [resultOf_byte_all]
    exact ⟨_, split_respondsOnly _ u, (resultOf_byte_high _).trans (nibHigh_pack h l),
      (resultOf_byte_low _).trans (nibLow_pack h l)⟩

/-- Settles O26: the high nibble over the low one is the byte, which is SPLIT's response. -/
theorem splitGivesHighAndLow : Obligations.SplitGivesHighAndLow := by
  refine ⟨fun nch _ h => decode_of_mask row_split rfl nch h, fun b s => ⟨?_, split_respondsOnly b s⟩⟩
  rw [append_nibbles]
  exact split_respondsOnly b s

/-- Settles O27: the packed byte as a number. -/
theorem combPacksHighOverLow : Obligations.CombPacksHighOverLow := by
  refine ⟨fun nch _ h => decode_of_mask row_comb rfl nch h, fun h l s => ?_⟩
  refine RespondsOnly.of_exec (exec_comb h l s) (responseWord_ok_eq ?_)
  rw [zext28_toNat (by decide), pack_toNat, BitVec.toNat_ofNat]
  omega

end Sys2Proof.Machine

/-! ## Family 42_sequence: SCREATE (R141), SADV (R142, R143), the sequence of a channel (R144) and its restart (R145) -/

namespace Sys2Proof

/-- A word that matches a row decodes to the command read from the row if CH2 names a channel (R69). -/
theorem decode_of_mask_of_channel {op : BitVec 4} {r : OpRow} (hr : rowOfOpcode op = some r) {nch : Nat} {w : Word}
    (h : w &&& r.maskBits = r.matchBits) (hc : (fieldCH2 w).toNat < nch) : decode nch w = .command (r.mnemonic.read w) :=
  decode_eq_command_iff.mpr ⟨r, List.mem_of_find?_eq_some hr, h, fun _ => hc, rfl⟩

end Sys2Proof

namespace Sys2Proof.Machine

/-! ### Words of SCREATE and SADV -/

/-- A word with a reserved bit set, or with a channel that does not exist, is answered with ILLEGAL (R174, R178). -/
theorem step_illegal_of_cause {s : State} {w : Word} {rest : List HostEvent} (hp : s.port = .command w :: rest)
    (h : ReservedBit w ∨ NoSuchChannel s.nch w) :
    step s = .next { s with port := rest, rsps := s.rsps ++ [0xF0000000] } := by
  obtain ⟨-, hd⟩ | ⟨-, hd⟩ | ⟨-, -, hd⟩ | ⟨-, hb, hc, -⟩ := decode_cases s.nch w
  · exact step_illegal hp hd
  · exact step_illegal hp hd
  · exact step_illegal hp hd
  · exact absurd h (not_or.mpr ⟨hb, hc⟩)

/-- The word of a command on a channel that exists runs the command. -/
theorem runEvent_encode {i : Instr} {c : ChanIx} {s : State} (hi : i.channel? = some c) (hc : c.toNat < s.nch) :
    runEvent (.command (encode i)) s = exec i s := by
  have hwf : i.wellFormed s.nch = true := (wellFormed_iff s.nch i).mpr fun d hd => by
    rw [hi] at hd
    exact Option.some.inj hd ▸ hc
  exact runEvent_command (decode_encode hwf)

/-! ### SCREATE (R141) -/

/-- Settles O29: the mask of the row, the two causes of ILLEGAL that are left under its opcode, and the command's effect. -/
theorem screateWritesItsChannel : Obligations.ScreateWritesItsChannel := by
  refine ⟨fun nch w h hc => decode_of_mask_of_channel row_screate h hc, fun s w rest hp hop h => ?_,
    fun c o base len s hc => exec_screate_present hc o base len⟩
  refine step_illegal_of_cause hp (h.imp (fun hbit => ?_) fun hch => ⟨.inl hop, hch⟩)
  simp [ReservedBit, hop, hbit]

/-! ### What an event does to one channel -/

theorem advances_iff {c : ChanIx} {e : HostEvent} : e.advances c = true ↔ e = .command (encode (.sadv c)) := beq_iff_eq

/-- An event that is no SCREATE and no SADV on channel `c`, and no reset, leaves channel `c` as it was (R33). -/
theorem runEvent_chan_other {e : HostEvent} {s t : State} {c : ChanIx} (hcreate : e.NoCreate c)
    (hadv : ¬ e.advances c = true) (hreset : e ≠ .reset) (ht : runEvent e s = .next t) : t.chan? c = s.chan? c := by
  obtain ⟨w, i, rfl, hdec, hr⟩ | ⟨w, why, -, -, hr⟩ | ⟨a, b, -, hr⟩ | ⟨he, -⟩ := runEvent_cases e s
  · refine exec_chan_other (hr ▸ ht) fun hi => ?_
    cases i with
    | screate d o base len =>
      cases hi
      exact hcreate o base len (congrArg _ (eq_encode_of_decode_screate hdec))
    | sadv d =>
      cases hi
      exact hadv (advances_iff.mpr (congrArg _ (eq_encode_of_decode_sadv hdec)))
    | _ => cases hi
  · cases hr.symm.trans ht
    rfl
  · cases hr.symm.trans ht
    rfl
  · exact absurd he hreset

/-! ### An exhausted channel (R30, R142) -/

/-- Channel `c` exists and is exhausted (R30). -/
def State.ExhaustedAt (s : State) (c : ChanIx) : Prop := ∃ k, s.chan? c = some k ∧ k.idx = k.len

theorem resetBlock_chan {s : State} {c : ChanIx} (hc : c.toNat < s.nch) : s.resetBlock.chan? c = some Channel.reset :=
  List.getElem?_replicate_of_lt hc

/-- A channel stays exhausted until the next SCREATE on it: an SADV on it only responds, and a reset sets IDX and LEN to 0. -/
theorem State.ExhaustedAt.of_runEvent {e : HostEvent} {s t : State} {c : ChanIx} (h : s.ExhaustedAt c)
    (hcreate : e.NoCreate c) (ht : runEvent e s = .next t) : t.ExhaustedAt c := by
  obtain ⟨k, hk, hend⟩ := h
  have hc := chan_some_lt hk
  by_cases hreset : e = .reset
  · subst hreset
    cases (runEvent_reset s).symm.trans ht
    exact ⟨_, resetBlock_chan hc, rfl⟩
  by_cases hadv : e.advances c = true
  · rw [advances_iff.mp hadv, runEvent_encode rfl hc, exec_sadv_exhausted hk hend] at ht
    cases ht
    exact ⟨k, hk, hend⟩
  · exact ⟨k, (runEvent_chan_other hcreate hadv hreset ht).trans hk, hend⟩

/-- The SADV word on an exhausted channel gives END and changes nothing else. -/
theorem State.ExhaustedAt.step_sadv {s : State} {c : ChanIx} {rest : List HostEvent} (h : s.ExhaustedAt c)
    (hp : s.port = .command (encode (.sadv c)) :: rest) :
    step s = .next { s with port := rest, rsps := s.rsps ++ [0x10000000] } := by
  obtain ⟨k, hk, hend⟩ := h
  calc step s = runEvent (.command (encode (.sadv c))) (s.withPort rest) := step_cons hp
    _ = exec (.sadv c) (s.withPort rest) := runEvent_encode rfl (chan_some_lt hk)
    _ = _ := exec_sadv_exhausted hk hend

/-! ### The yielding SADV (R142, R143) -/

/-- The cursor's move, field by field: POS toggles, and IDX moves on after the second nibble. -/
theorem advance_eq (k : Channel) : k.advance =
    { k with pos := if k.pos = .first then .second else .first, idx := if k.pos = .first then k.idx else k.idx + 1 } := by
  cases h : k.pos <;> simp [Channel.advance, SubPos.flip, h]

/-- SADV on a channel that is not exhausted, field by field. -/
theorem exec_sadv_yields_fields {c : ChanIx} {s : State} {k : Channel} (hk : s.chan? c = some k) (he : k.idx ≠ k.len) :
    exec (.sadv c) s = .next { s with
      ch := s.ch.set c.toNat { k with
        pos := if k.pos = .first then .second else .first
        idx := if k.pos = .first then k.idx else k.idx + 1 }
      rsps := s.rsps ++ [0#28 ++ extract (s.srcByte k.addr) (muxSelect k.pos k.ord)]
      reads := s.reads ++ [k.addr] } := by
  rw [exec_sadv_yields hk he, ← advance_eq, ← responseWord_ok_nibble]
  rfl

/-- Settles O30: the row's mask and the causes of ILLEGAL, then SADV on an exhausted channel, on another one, and after a run
in which the channel stays exhausted. -/
theorem sadvYieldsTheNextNibble : Obligations.SadvYieldsTheNextNibble := by
  refine ⟨fun nch w h hc => decode_of_mask_of_channel row_sadv h hc, ?_, ?_, ?_, ?_⟩
  · intro s w rest hp hop h
    refine step_illegal_of_cause hp (h.imp (fun hbits => ?_) fun hch => ⟨.inr hop, hch⟩)
    simp [ReservedBit, hop, hbits]
  · intro c s k hk hend
    exact exec_sadv_exhausted hk hend
  · intro c s k hk he
    refine ⟨_, _, exec_sadv_yields_fields hk he, addr_toNat k, ?_, ?_, ?_, ?_⟩
    all_goals
      intro hord hpos
      rw [extract_eq, hord, hpos]
      rfl
  · intro c s k evs rest hk hend hcreate
    obtain ⟨t, ht, hp, hexh⟩ := run_induction (P := fun u => u.ExhaustedAt c) (Q := fun e => e.NoCreate c)
      (fun _ _ h => h) (fun _ _ _ he h hr => h.of_runEvent he hr) evs (.command (encode (.sadv c)) :: rest) s hcreate
      ⟨k, hk, hend⟩
    exact ⟨t, ht, hexh.step_sadv hp⟩

/-! ### After SCREATE -/

/-- The state right after SCREATE on a channel that exists. -/
def State.created (s : State) (c : ChanIx) (o : Order) (base : Addr) (len : Count) : State :=
  (s.setChan c (Channel.create o base len)).respond .ok 0

theorem created_chan {s : State} {c : ChanIx} (hc : c.toNat < s.nch) (o : Order) (base : Addr) (len : Count) :
    (s.created c o base len).chan? c = some (cursorAt o base len (min 0 (2 * len.toNat))) := by
  rw [State.created, respond_chan, setChan_chan_self hc, create_eq_cursorAt, Nat.zero_min]

/-- A run whose first event is SCREATE. -/
theorem runSteps_screate {s : State} {c : ChanIx} (hc : c.toNat < s.nch) (o : Order) (base : Addr) (len : Count) (n : Nat)
    (evs : List HostEvent) :
    runSteps (1 + n) (s.withPort (.command (encode (.screate c o base len)) :: evs)) =
      runSteps n ((s.created c o base len).withPort evs) := by
  have hcreate : runEvent (.command (encode (.screate c o base len))) (s.withPort evs) =
      .next ((s.created c o base len).withPort evs) :=
    (runEvent_encode (s := s.withPort evs) rfl hc).trans (exec_screate_present (s := s.withPort evs) hc o base len)
  rw [Nat.add_comm]
  exact runSteps_cons hcreate n

/-- Settles O34: SCREATE puts the cursor at 0, and `n` SADVs move it along the sequence. -/
theorem wholeSequenceInOneRun : Obligations.WholeSequenceInOneRun := by
  intro s c o base len n rest hc
  obtain ⟨t, ht, hport, hsrc, hch, hrsps⟩ := runSteps_sadv_cursor n rest (created_chan hc o base len)
  refine ⟨t, (runSteps_screate hc o base len n _).trans ht, hport, hsrc, ?_, ?_⟩
  · rw [hch, Nat.zero_add]
    exact List.set_set ..
  · rw [hrsps, List.range_eq_range']
    rfl

/-- Settles O35: both runs give the whole sequence, which depends on SRC over the span only. -/
theorem restartYieldsTheSameSequence : Obligations.RestartYieldsTheSameSequence := by
  intro s1 s2 c d o base len n hc hd hspan
  obtain ⟨t1, ht1, -, -, -, hrsps1⟩ := wholeSequenceInOneRun s1 c o base len n [] hc
  obtain ⟨t2, ht2, -, -, -, hrsps2⟩ := wholeSequenceInOneRun s2 d o base len n [] hd
  have hseq : s2.sequenceResponse o base len = s1.sequenceResponse o base len :=
    funext fun k => (sequenceResponse_congr hspan o k).symm
  rw [List.append_nil] at ht1 ht2
  rw [List.append_assoc] at hrsps1 hrsps2
  exact ⟨t1, t2, _, ht1, ht2, hrsps1, hseq ▸ hrsps2⟩

/-! ### The sequence under interleaving (R144) -/

/-- The induction over a run with its history: what holds of no events and the start, does not look at the port, and goes on
from the events so far to one event more, holds of all the events and the end. -/
theorem run_induction_history {P : List HostEvent → State → Prop} {Q : HostEvent → Prop}
    (hport : ∀ evs s rest, P evs s → P evs (s.withPort rest))
    (hstep : ∀ evs e s t, Q e → P evs s → runEvent e s = .next t → P (evs ++ [e]) t) (evs rest : List HostEvent) (s : State)
    (hQ : ∀ e ∈ evs, Q e) (hP : P [] s) :
    ∃ t, runSteps evs.length (s.withPort (evs ++ rest)) = .next t ∧ t.port = rest ∧ P evs t := by
  induction evs using List.reverseRecOn generalizing rest with
  | nil => exact ⟨s.withPort rest, rfl, rfl, hport [] s rest hP⟩
  | append_singleton evs e ih =>
    obtain ⟨t, ht, hp, hPt⟩ := ih (e :: rest) fun e' he' => hQ e' (List.mem_append_left _ he')
    obtain ⟨u, hu⟩ := runEvent_next e (t.withPort rest)
    have hPu := hstep evs e _ u (hQ e List.mem_concat_self) (hport evs t rest hPt) hu
    refine ⟨u, ?_, (runEvent_port_nch hu).1, hPu⟩
    rw [List.append_assoc, List.length_append]
    exact (runSteps_add ht 1).trans (runSteps_succ ((step_cons hp).trans hu) 0)

/-- After the events `evs` since SCREATE in `s`: channel `c` of `t` stands at as many nibbles as `evs` holds SADVs on it, or at
its end, and the span reads in `t` as in `s`. -/
def AlongSequence (s : State) (c : ChanIx) (o : Order) (base : Addr) (len : Count) (evs : List HostEvent) (t : State) : Prop :=
  t.chan? c = some (cursorAt o base len (min (evs.countP (HostEvent.advances c)) (2 * len.toNat))) ∧
  ∀ i < len.toNat, t.spanByte base i = s.spanByte base i

theorem AlongSequence.of_runEvent {s t u : State} {c : ChanIx} {o : Order} {base : Addr} {len : Count}
    {evs : List HostEvent} {e : HostEvent} (h : AlongSequence s c o base len evs t) (he : e.KeepsSequence c base len)
    (hu : runEvent e t = .next u) : AlongSequence s c o base len (evs ++ [e]) u := by
  obtain ⟨hchan, hspan⟩ := h
  obtain ⟨hcreate, hreset, hwrite⟩ := he
  refine ⟨?_, fun i hi => (runEvent_srcByte (fun b hb => hwrite _ b hb i hi rfl) hu).trans (hspan i hi)⟩
  rw [List.countP_append, List.countP_singleton]
  by_cases hadv : e.advances c = true
  · obtain ⟨v, hv, -, -, -, hch⟩ := runEvent_sadv_cursor hchan
    rw [advances_iff.mp hadv, hv] at hu
    cases hu
    rw [if_pos hadv, State.chan?, hch]
    exact List.getElem?_set_self (chan_some_lt hchan)
  · rw [if_neg hadv, runEvent_chan_other hcreate hadv hreset hu, hchan, Nat.add_zero]

/-- The next SADV gives the response of `s`'s sequence whose number is the count of the SADVs so far. -/
theorem AlongSequence.step_sadv {s t : State} {c : ChanIx} {o : Order} {base : Addr} {len : Count}
    {evs rest : List HostEvent} (h : AlongSequence s c o base len evs t)
    (hp : t.port = .command (encode (.sadv c)) :: rest) :
    ∃ u, step t = .next u ∧ u.port = rest ∧
      u.rsps = t.rsps ++ [s.sequenceResponse o base len (evs.countP (HostEvent.advances c))] := by
  obtain ⟨hchan, hspan⟩ := h
  obtain ⟨u, hu, hrsps, -, hport, -⟩ := runEvent_sadv_cursor (s := t.withPort rest) hchan
  refine ⟨u, (step_cons hp).trans hu, hport, ?_⟩
  rw [hrsps, sequenceResponse_congr (s := t.withPort rest) (t := s) hspan]
  rfl

/-- Settles O33: SCREATE starts the sequence, every event in between goes along it, and the SADV gives its next response. -/
theorem interleavedSequenceYieldsInOrder : Obligations.InterleavedSequenceYieldsInOrder := by
  intro s c o base len evs rest hc hevs
  have hstart : AlongSequence s c o base len [] (s.created c o base len) :=
    ⟨created_chan hc o base len, fun _ _ => rfl⟩
  obtain ⟨t, ht, hp, hseq⟩ := run_induction_history (P := AlongSequence s c o base len) (fun _ _ _ h => h)
    (fun _ _ _ _ he h hr => h.of_runEvent he hr) evs (.command (encode (.sadv c)) :: rest) _ hevs hstart
  obtain ⟨u, hu, hport, hrsps⟩ := hseq.step_sadv hp
  exact ⟨t, u, (runSteps_screate hc o base len _ _).trans ht, hu, hport, hrsps⟩

end Sys2Proof.Machine

/-! ## Family 60_exceptions: the causes of ILLEGAL (R174), the status table (R171 to R173, R175), and that every command
completes (R188) -/

namespace Sys2Proof.Machine

/-! ### Every command completes (R188) -/

theorem runSteps_next (n : Nat) (s : State) : ∃ t, runSteps n s = .next t := by
  induction n generalizing s with
  | zero => exact ⟨s, rfl⟩
  | succ n ih =>
    obtain ⟨t, ht⟩ := step_next s
    rw [runSteps_succ ht]
    exact ih t

/-- Settles O11: a word runs its command, which adds one response and leaves the port, or it is answered with ILLEGAL. -/
theorem everyCommandCompletesWithOneResponse : Obligations.EveryCommandCompletesWithOneResponse := by
  refine ⟨fun s w rest hp => ?_, runSteps_next⟩
  cases hdec : decode s.nch w with
  | command i =>
    obtain ⟨t, ht⟩ := exec_next i (s.withPort rest)
    obtain ⟨-, hport, -, ⟨st, r, hrsps⟩, -⟩ := exec_frame ht
    exact ⟨t, _, (stepRunsTheDecodedCommand s w rest i hp hdec).trans ht, hport, hrsps⟩
  | illegal why => exact ⟨_, _, step_illegal hp hdec, rfl, rfl⟩

/-! ### A channel that does not exist (R174 (c)) -/

/-- Settles O31: both meanings look the channel up first. -/
theorem absentChannelAnswersIllegal : Obligations.AbsentChannelAnswersIllegal :=
  fun _ _ hc => ⟨.of_exec (exec_sadv_absent hc) (by decide),
    fun o base len => .of_exec (exec_screate_absent hc o base len) (by decide)⟩

/-! ### The status table (R171 to R173, R175) -/

/-- The table of R175: the command `i` in the state `s` is answered with this STATUS and this RESULT. It has no row for
ILLEGAL, and under OK it leaves RESULT open. -/
inductive StatusRow (s : State) : Instr → Status → BitVec 28 → Prop
  /-- END (R173). -/
  | exhausted {c : ChanIx} {k : Channel} (hk : s.chan? c = some k) (hend : k.idx = k.len) :
    StatusRow s (.sadv c) .exhausted 0
  /-- RANGE, with the value (R171). -/
  | range {v : Int28} (hv : 16 ≤ v.toNat) : StatusRow s (.nval v) .range v
  /-- PARSE, with the code point (R172). -/
  | parse {c : CodePoint} (hc : ¬ IsHexDigit c) : StatusRow s (.hexp c) .parse (zext28 c)
  /-- OK, where no error is raised. -/
  | ok {i : Instr} {r : BitVec 28} (hend : ∀ c k, i = .sadv c → s.chan? c = some k → k.idx ≠ k.len)
    (hrange : ∀ v, i = .nval v → ¬ 16 ≤ v.toNat) (hparse : ∀ c, i = .hexp c → IsHexDigit c) : StatusRow s i .ok r

/-- `i` in the state `s` gives one response, by the status table. -/
def FollowsStatusTable (i : Instr) (s : State) : Prop :=
  ∃ t st r, exec i s = .next t ∧ t.rsps = s.rsps ++ [responseWord st r] ∧ StatusRow s i st r

theorem nval_followsStatusTable (v : Int28) (s : State) : FollowsStatusTable (.nval v) s := by
  cases hv : outOfRange v with
  | true => exact ⟨_, _, _, exec_nval_outOfRange hv s, rfl, .range ((outOfRange_iff v).mp hv)⟩
  | false =>
    refine ⟨_, _, _, exec_nval_inRange hv s, rfl, .ok nofun ?_ nofun⟩
    rintro _ ⟨⟩
    exact mt (outOfRange_iff v).mpr (Bool.eq_false_iff.mp hv)

theorem hexp_followsStatusTable (c : CodePoint) (s : State) : FollowsStatusTable (.hexp c) s := by
  by_cases hc : IsHexDigit c
  · obtain ⟨n, hn⟩ := hexNibble_of_isHexDigit hc
    refine ⟨_, _, _, exec_hexp_digit hn s, rfl, .ok nofun nofun ?_⟩
    rintro _ ⟨⟩
    exact hc
  · exact ⟨_, _, _, exec_hexp_other (hexNibble_eq_none hc) s, rfl, .parse hc⟩

theorem sadv_followsStatusTable {c : ChanIx} {s : State} (hc : c.toNat < s.nch) : FollowsStatusTable (.sadv c) s := by
  obtain ⟨k, hk⟩ := chan_isSome hc
  by_cases hend : k.idx = k.len
  · exact ⟨_, _, _, exec_sadv_exhausted hk hend, rfl, .exhausted hk hend⟩
  · refine ⟨_, _, _, exec_sadv_yields hk hend, rfl, .ok ?_ nofun nofun⟩
    rintro _ k' ⟨⟩ hk'
    rwa [← Option.some.inj (hk.symm.trans hk')]

/-- Every command that the block has follows the table. -/
theorem followsStatusTable {i : Instr} {s : State} (h : i.wellFormed s.nch = true) : FollowsStatusTable i s := by
  have hchannel := (wellFormed_iff s.nch i).mp h
  cases i with
  | nval v => exact nval_followsStatusTable v s
  | hexp c => exact hexp_followsStatusTable c s
  | sadv c => exact sadv_followsStatusTable (hchannel c rfl)
  | screate c o base len =>
    exact ⟨_, _, _, exec_screate_present (hchannel c rfl) o base len, rfl, .ok nofun nofun nofun⟩
  | nmask v => exact ⟨_, _, _, exec_nmask v s, rfl, .ok nofun nofun nofun⟩
  | ntoi n => exact ⟨_, _, _, exec_ntoi n s, rfl, .ok nofun nofun nofun⟩
  | hexr n => exact ⟨_, _, _, exec_hexr n s, rfl, .ok nofun nofun nofun⟩
  | split b => exact ⟨_, _, _, exec_split b s, rfl, .ok nofun nofun nofun⟩
  | comb hi lo => exact ⟨_, _, _, exec_comb hi lo s, rfl, .ok nofun nofun nofun⟩

/-- A response's STATUS field says which status was given (R62). -/
theorem statusOf_eq_code_iff {st st' : Status} {r : BitVec 28} : statusOf (responseWord st r) = st'.code ↔ st = st' := by
  rw [statusOf_responseWord]
  exact ⟨code_injective, congrArg Status.code⟩

namespace StatusRow
variable {s : State} {i : Instr} {st : Status} {r : BitVec 28} (h : StatusRow s i st r)
include h

theorem exhausted_iff : st = .exhausted ↔ ∃ c k, i = .sadv c ∧ s.chan? c = some k ∧ k.idx = k.len := by
  cases h with
  | exhausted hk hend => exact iff_of_true rfl ⟨_, _, rfl, hk, hend⟩
  | range hv => simp
  | parse hc => simp
  | ok hend => exact iff_of_false nofun fun ⟨c, k, hi, hk, he⟩ => hend c k hi hk he

theorem range_iff : st = .range ↔ ∃ v, i = .nval v ∧ 16 ≤ v.toNat := by
  cases h with
  | exhausted hk hend => simp
  | range hv => exact iff_of_true rfl ⟨_, rfl, hv⟩
  | parse hc => simp
  | ok _ hrange => exact iff_of_false nofun fun ⟨v, hi, hv⟩ => hrange v hi hv

theorem parse_iff : st = .parse ↔ ∃ c, i = .hexp c ∧ ¬ IsHexDigit c := by
  cases h with
  | exhausted hk hend => simp
  | range hv => simp
  | parse hc => exact iff_of_true rfl ⟨_, rfl, hc⟩
  | ok _ _ hparse => exact iff_of_false nofun fun ⟨c, hi, hc⟩ => hc (hparse c hi)

theorem ne_illegal : st ≠ .illegal := by cases h <;> nofun

theorem statusOf_cases : statusOf (responseWord st r) = 0x0#4 ∨ statusOf (responseWord st r) = 0x1#4 ∨
    statusOf (responseWord st r) = 0x2#4 ∨ statusOf (responseWord st r) = 0x3#4 := by
  rw [statusOf_responseWord]
  cases h <;> decide

/-- RANGE carries the value. -/
theorem result_of_range {v : Int28} (hi : i = .nval v) (hst : st = .range) : r = v := by
  subst hst
  cases h
  exact Instr.nval.inj hi

/-- PARSE carries the code point, below seven zero bits. -/
theorem result_of_parse {c : CodePoint} (hi : i = .hexp c) (hst : st = .parse) : r = 0#7 ++ c := by
  subst hst
  cases h
  rw [Instr.hexp.inj hi]
  exact BitVec.setWidth_eq_append (by decide)

theorem result_of_exhausted (hst : st = .exhausted) : r = 0 := by
  subst hst
  cases h
  rfl

end StatusRow

/-- Settles O40: the rows of the status table, read by their STATUS; a word that is no command has a cause of ILLEGAL. -/
theorem statusTable : Obligations.StatusTable := by
  refine ⟨fun i s hwf => ?_, fun s w rest hp hnone => ?_⟩
  · obtain ⟨t, st, r, ht, hrsps, hrow⟩ := followsStatusTable hwf
    refine ⟨t, _, ht, hrsps, statusOf_eq_code_iff.trans hrow.exhausted_iff, statusOf_eq_code_iff.trans hrow.range_iff,
      statusOf_eq_code_iff.trans hrow.parse_iff, hrow.statusOf_cases, ?_⟩
    rw [resultOf_responseWord]
    exact ⟨fun v hi hst => hrow.result_of_range hi (statusOf_eq_code_iff.mp hst),
      fun c hi hst => hrow.result_of_parse hi (statusOf_eq_code_iff.mp hst),
      fun hst => hrow.result_of_exhausted (statusOf_eq_code_iff.mp hst)⟩
  · cases hdec : decode s.nch w with
    | command i => exact absurd hdec (hnone i)
    | illegal why => exact step_illegal hp hdec

/-! ### The causes of ILLEGAL (R174) -/

/-- A word is a command exactly if it has none of the three causes. -/
theorem decode_command_iff_no_cause (nch : Nat) (w : Word) :
    (∃ i, decode nch w = .command i) ↔ ¬ (ReservedOpcode w ∨ ReservedBit w ∨ NoSuchChannel nch w) := by
  obtain ⟨-, -, -, hcommand⟩ := decodeTestsCausesInOrder nch w
  exact hcommand.trans (not_or.trans (and_congr_right' not_or)).symm

/-- Settles O6: a word without a cause runs a command that the block has, and the status table has no ILLEGAL row; a word
with a cause is answered with ILLEGAL. -/
theorem illegalForExactlyItsCauses : Obligations.IllegalForExactlyItsCauses := by
  intro s w rest hp
  have hcommand := decode_command_iff_no_cause s.nch w
  cases hdec : decode s.nch w with
  | command i =>
    obtain ⟨-, hwf⟩ := encodeOfDecodeIsTheWord s.nch w i hdec
    obtain ⟨t, st, r, ht, hrsps, hrow⟩ := followsStatusTable (s := s.withPort rest) hwf
    have hst : statusOf (responseWord st r) ≠ 0xF#4 := mt (statusOf_eq_code_iff (st' := .illegal)).mp hrow.ne_illegal
    exact ⟨t, _, (stepRunsTheDecodedCommand s w rest i hp hdec).trans ht, hrsps,
      iff_of_false hst (hcommand.mp ⟨i, hdec⟩), fun h => absurd h hst⟩
  | illegal why =>
    have hcause : ReservedOpcode w ∨ ReservedBit w ∨ NoSuchChannel s.nch w := by
      by_contra hnone
      obtain ⟨i, hi⟩ := hcommand.mpr hnone
      cases hdec.symm.trans hi
    exact ⟨_, 0xF0000000, step_illegal hp hdec, rfl, iff_of_true (by decide) hcause, fun _ => ⟨by decide, rfl⟩⟩

end Sys2Proof.Machine

/-! ## Family 70_reset_and_hazards: channels after reset (R202), host writes and later SADVs (R205, R206), and the order of the
responses (R208) -/

namespace Sys2Proof.Machine

/-! ### Responses in command order (R208) -/

/-- `t` has all the responses of `s`, then one for each command of `evs`. -/
def AnswersEach (s : State) (evs : List HostEvent) (t : State) : Prop :=
  ∃ added, t.rsps = s.rsps ++ added ∧ added.length = evs.countP HostEvent.isCommand

theorem AnswersEach.append {s t u : State} {evs evs' : List HostEvent} (h : AnswersEach s evs t)
    (h' : AnswersEach t evs' u) : AnswersEach s (evs ++ evs') u := by
  obtain ⟨added, ht, hlen⟩ := h
  obtain ⟨added', hu, hlen'⟩ := h'
  exact ⟨added ++ added', by rw [hu, ht, List.append_assoc], by rw [List.length_append, List.countP_append, hlen, hlen']⟩

/-- A command word gives one response, a host write and a reset give none (R60). -/
theorem runEvent_answersEach {e : HostEvent} {s t : State} (ht : runEvent e s = .next t) : AnswersEach s [e] t := by
  obtain ⟨w, i, rfl, -, hr⟩ | ⟨w, why, rfl, -, hr⟩ | ⟨a, b, rfl, hr⟩ | ⟨rfl, hr⟩ := runEvent_cases e s <;> rw [hr] at ht
  case inl =>
    obtain ⟨-, -, -, ⟨st, r, hrsps⟩, -⟩ := exec_frame ht
    exact ⟨[responseWord st r], hrsps, rfl⟩
  all_goals cases ht
  · exact ⟨[responseWord .illegal 0], rfl, rfl⟩
  · exact ⟨[], (List.append_nil _).symm, rfl⟩
  · exact ⟨[], (List.append_nil _).symm, rfl⟩

theorem runSteps_answersEach (s : State) (evs rest : List HostEvent) :
    ∃ t, runSteps evs.length (s.withPort (evs ++ rest)) = .next t ∧ t.port = rest ∧ AnswersEach s evs t :=
  run_induction_history (P := AnswersEach s) (Q := fun _ => True) (fun _ _ _ h => h)
    (fun _ _ _ _ _ h hr => h.append (runEvent_answersEach hr)) evs rest s (fun _ _ => trivial)
    ⟨[], (List.append_nil _).symm, rfl⟩

/-- Settles O12: the run of the later events starts where that of the earlier ones ends, and each adds its responses at the
end. -/
theorem responsesFollowCommandOrder : Obligations.ResponsesFollowCommandOrder := by
  intro s evs later rest
  obtain ⟨t, ht, hport, first, hfirst, hlen⟩ := runSteps_answersEach s evs (later ++ rest)
  obtain ⟨u, hu, -, second, hsecond, hlen'⟩ := runSteps_answersEach t later rest
  rw [← hport, withPort_self] at hu
  rw [← List.append_assoc] at ht
  exact ⟨t, u, ht, by rw [List.length_append, runSteps_add ht, hu], first, second, hfirst, by rw [hsecond, hfirst],
    hlen, hlen'⟩

/-! ### Channels after reset (R202) -/

/-- A run whose first event is a reset. -/
theorem runSteps_reset (s : State) (n : Nat) (evs : List HostEvent) :
    runSteps (1 + n) (s.withPort (.reset :: evs)) = runSteps n (s.resetBlock.withPort evs) := by
  rw [Nat.add_comm]
  exact runSteps_cons (runEvent_reset (s.withPort evs)) n

theorem resetWith_chan {nch : Nat} {c : ChanIx} (hc : c.toNat < nch) :
    (State.resetWith nch).chan? c = some Channel.reset :=
  List.getElem?_replicate_of_lt hc

/-- Settles O16: a reset leaves every channel exhausted, and an exhausted channel answers END up to the next SCREATE on it. -/
theorem uncreatedChannelsAnswerEnd : Obligations.UncreatedChannelsAnswerEnd := by
  obtain ⟨-, -, -, -, hend⟩ := sadvYieldsTheNextNibble
  refine ⟨fun s c evs rest hc hcreate => ?_, fun nch c evs rest hc hcreate => ?_⟩
  · rw [runSteps_reset]
    exact hend c _ Channel.reset evs rest (resetBlock_chan hc) rfl hcreate
  · exact hend c _ Channel.reset evs rest (resetWith_chan hc) rfl hcreate

/-! ### A host write before a later SADV (R205) -/

/-- A run whose first event is a host write. -/
theorem runSteps_write (s : State) (a : Addr) (b : Byte) (n : Nat) (evs : List HostEvent) :
    runSteps (1 + n) (s.withPort (.write a b :: evs)) = runSteps n ((s.hostWrite a b).withPort evs) := by
  rw [Nat.add_comm]
  exact runSteps_cons (runEvent_write (s.withPort evs) a b) n

/-- The SADV word on a channel with bytes left yields a nibble. -/
theorem runEvent_sadv_yields {s : State} {c : ChanIx} {k : Channel} (hk : s.chan? c = some k) (he : k.idx ≠ k.len) :
    runEvent (.command (encode (.sadv c))) s = .next (yieldNibble c k s) :=
  (runEvent_encode rfl (chan_some_lt hk)).trans (exec_sadv_yields hk he)

/-- A run whose first event is an SADV on a channel with bytes left. -/
theorem runSteps_sadv_yields {s : State} {c : ChanIx} {k : Channel} (hk : s.chan? c = some k) (he : k.idx ≠ k.len) (n : Nat)
    (evs : List HostEvent) :
    runSteps (1 + n) (s.withPort (.command (encode (.sadv c)) :: evs)) = runSteps n ((yieldNibble c k s).withPort evs) := by
  rw [Nat.add_comm]
  exact runSteps_cons (runEvent_sadv_yields (s := s.withPort evs) hk he) n

/-- The response of the yielding SADV when the current byte is `b` (R143). -/
def Channel.yieldedWord (k : Channel) (b : Byte) : Word :=
  if (k.pos = .first ∧ k.ord = .highFirst) ∨ (k.pos = .second ∧ k.ord = .lowFirst) then 0#28 ++ b.extractLsb' 4 4
  else 0#28 ++ b.extractLsb' 0 4

theorem yieldNibble_rsps_word (c : ChanIx) (k : Channel) (s : State) :
    (yieldNibble c k s).rsps = s.rsps ++ [k.yieldedWord (s.srcByte k.addr)] := by
  rw [yieldNibble_rsps, okNibble_word, extract_eq, Channel.yieldedWord]
  cases hp : k.pos <;> cases ho : k.ord <;> simp [muxSelect]

/-- The two SADVs of one byte with a host write to the byte between them: the first sees the old byte, the second the new. -/
theorem yieldNibble_hostWrite_yieldNibble_rsps {c : ChanIx} {k : Channel} (hpos : k.pos = .first) (s : State) (b : Byte) :
    (yieldNibble c k.advance ((yieldNibble c k s).hostWrite k.addr b)).rsps =
      s.rsps ++ [k.yieldedWord (s.srcByte k.addr), k.advance.yieldedWord b] := by
  have haddr : k.advance.addr = k.addr := by rw [Channel.addr, advance_base, advance_idx_of_first hpos, Channel.addr]
  rw [yieldNibble_rsps_word, hostWrite_rsps, yieldNibble_rsps_word, haddr, hostWrite_srcByte, if_pos rfl,
    List.append_assoc, List.singleton_append]

/-- Settles O44: no event but a host write to `a` changes the byte at `a`, and each SADV reads its byte when it runs. -/
theorem hostWriteIsSeenByLaterSadv : Obligations.HostWriteIsSeenByLaterSadv := by
  refine ⟨fun s t a b evs rest c k hevs ht hk he ha => ?_, fun s c k b rest hk he hpos => ?_⟩
  · rw [runSteps_write] at ht
    obtain ⟨t', ht', hport, hbyte⟩ := srcChangesOnlyByHostWrites (s.hostWrite a b) evs _ a hevs
    cases ht'.symm.trans ht
    have hb : t.srcByte k.addr = b := by rw [Channel.addr, ha, hbyte, hostWrite_srcByte, if_pos rfl]
    refine ⟨_, (step_cons hport).trans (runEvent_sadv_yields (s := t.withPort rest) hk he), ?_⟩
    rw [yieldNibble_rsps_word, withPort_srcByte, hb]
    rfl
  · have hk1 : ((yieldNibble c k s).hostWrite k.addr b).chan? c = some k.advance :=
      yieldNibble_chan_self (chan_some_lt hk) k
    have he1 : k.advance.idx ≠ k.advance.len := by rwa [advance_idx_of_first hpos, advance_len]
    refine ⟨_, (runSteps_sadv_yields hk he 2 _).trans <| (runSteps_write (yieldNibble c k s) k.addr b 1 _).trans <|
      runSteps_sadv_yields hk1 he1 0 rest, rfl, ?_⟩
    rw [withPort_rsps, yieldNibble_hostWrite_yieldNibble_rsps hpos]
    cases ho : k.ord <;> simp [Channel.yieldedWord, advance_eq, Channel.addr, hpos, ho]

/-! ### Host writes between SCREATE and the first SADV (R206) -/

/-- `s` after the host has written the bytes `ws`, the first first (R42). -/
def State.hostWrites (s : State) (ws : List (Addr × Byte)) : State :=
  { s with src := ws.foldl (fun m x => Memory.store m x.1.toNat x.2) s.src }

theorem runSteps_writes (s : State) (ws : List (Addr × Byte)) (rest : List HostEvent) :
    runSteps ws.length (s.withPort (ws.map (fun x => .write x.1 x.2) ++ rest)) =
      .next ((s.hostWrites ws).withPort rest) := by
  induction ws generalizing s with
  | nil => rfl
  | cons x ws ih =>
    rw [List.length_cons, Nat.add_comm, List.map_cons, List.cons_append, runSteps_write, ih]
    rfl

/-- Settles O45: SCREATE puts the cursor at 0 and reads nothing, the writes leave the channel alone, and the SADVs go along the
sequence of the state after the writes. -/
theorem hostWritesAfterCreateAreSeen : Obligations.HostWritesAfterCreateAreSeen := by
  intro s c o base len ws n rest hc
  have hchan : ((s.created c o base len).hostWrites ws).chan? c = some (cursorAt o base len (min 0 (2 * len.toNat))) :=
    created_chan hc o base len
  obtain ⟨u, hu, hport, -, -, hrsps⟩ := runSteps_sadv_cursor n rest hchan
  have ht := (runSteps_screate hc o base len _ _).trans (runSteps_writes (s.created c o base len) ws
    (List.replicate n (.command (encode (.sadv c))) ++ rest))
  rw [← List.append_assoc] at ht
  refine ⟨_, u, ht, rfl, rfl, hu, hport, ?_⟩
  rw [hrsps, List.range_eq_range']
  rfl

end Sys2Proof.Machine
